-- ==== Sys2Proof/Word.lean ====
section
/-! DEFINITION. The unit's plain word types (00_scope.md section 5: bytes, bits, unsigned values). -/

namespace Sys2Proof

/-- A byte: 8 bits, unsigned (00_scope.md section 5). -/
abbrev Byte := BitVec 8

/-- A 1-bit register or port. -/
abbrev Bit := BitVec 1

/-- A command word: exactly 16 bits, one value with no byte order of its own (R34, R44). -/
abbrev CmdWord := BitVec 16

end Sys2Proof
end

