-- ==== Sys2Proof/Syntax.lean ====
section
/-! DEFINITION. The unit's instructions: the six commands of command set 1 (30_encoding.md R46, spec/opcode_table.json). -/

namespace Sys2Proof

/-- One constructor per row of the opcode table. An operand has exactly the bits its row's pattern gives it (R46:
`0001iiiibbbbbbbb`, `00100iiibbbbbbbb`, `001100iibbbbbbbb`), so every term is a legal command. -/
inductive Instr where
  /-- LDKEY i, b (R52): load byte `i` of the key. -/
  | ldkey (i : BitVec 4) (b : Byte)
  /-- LDEPOCH i, b (R53): load byte `i` of the epoch time, 0 the most significant. -/
  | ldepoch (i : BitVec 3) (b : Byte)
  /-- LDCAND i, b (R54): load byte `i` of the candidate, 0 the most significant. -/
  | ldcand (i : BitVec 2) (b : Byte)
  /-- COMPUTE (R66): derive the code for the loaded key and epoch time. -/
  | compute
  /-- VALIDATE (R68): check the loaded candidate against the code. -/
  | validate
  /-- CLRKEY (R72): overwrite the key. -/
  | clrkey
  deriving DecidableEq, Repr

end Sys2Proof
end

