-- ==== Sys2Proof/WellFormed.lean ====
section
/-! DEFINITION. Well-formedness. A term of `Instr` is well formed by its types; what can be ill formed is a word's
fields before decoding (R45 to R47) and a line of assembler source before assembly (R49, R50). -/

namespace Sys2Proof

/-- The three fields of format C (R44, R45), taken from a word or given one by one. -/
structure CmdFields where
  op : BitVec 4
  idx : BitVec 4
  imm8 : Byte
  deriving DecidableEq, Repr

/-- The fields of a word: `op = W[15:12]`, `idx = W[11:8]`, `imm8 = W[7:0]` (R45). -/
def CmdFields.ofWord (w : CmdWord) : CmdFields :=
  { op := w.extractLsb' 12 4, idx := w.extractLsb' 8 4, imm8 := w.extractLsb' 0 8 }

/-- The word of three fields: `W = op * 4096 + idx * 256 + imm8` (R44). -/
def CmdFields.toWord (f : CmdFields) : CmdWord := f.op ++ f.idx ++ f.imm8

/-- Do the fields spell a command? The columns `op`, `idx`, `imm8` of R46's table; what it refuses is the five classes
of illegal words of R47. -/
def CmdFields.wellFormed (f : CmdFields) : Bool :=
  match f.op.toNat with
  | 1 => true
  | 2 => f.idx.toNat < 8
  | 3 => f.idx.toNat < 4
  | 4 | 5 | 6 => f.idx.toNat == 0 && f.imm8.toNat == 0
  | _ => false

/-- One line of assembler source (R49): the six command forms, `.word` for a raw word, and the three
pseudo-commands (R50). Numbers are not yet checked. -/
inductive SourceLine where
  | ldkey (i b : Nat)
  | ldepoch (i b : Nat)
  | ldcand (i b : Nat)
  | compute
  | validate
  | clrkey
  | rawWord (w : Nat)
  | key (bytes : List Nat)
  | epoch (v : Nat)
  | cand (v : Nat)
  deriving DecidableEq, Repr

/-- The operand ranges of R49 and R50; an operand out of its range is an assembly error, not a way to write an illegal
word. -/
def SourceLine.wellFormed : SourceLine → Bool
  | .ldkey i b => i < 16 && b < 256
  | .ldepoch i b => i < 8 && b < 256
  | .ldcand i b => i < 4 && b < 256
  | .compute => true
  | .validate => true
  | .clrkey => true
  | .rawWord w => w < 65536
  | .key bytes => bytes.length == 16 && bytes.all (fun b => decide (b < 256))
  | .epoch v => v < 18446744073709551616
  | .cand v => v < 4294967296

end Sys2Proof
end

