-- ==== Sys2Proof/Decode.lean ====
section
/-! DEFINITION. The decoder (30_encoding.md R46, R47), total on all 65,536 words and refusing each illegal word by the
name of its class, and then the encoder. -/

namespace Sys2Proof

/-- The five classes of illegal words, (a) to (e) of R47. The unit itself makes no difference between them (R75: a
fault records nothing besides its bit); the names serve the reader only. Mark: DESIGN CHOICE, safe; log entry 10. -/
inductive IllegalWord where
  /-- (a) `op = 0x0`. -/
  | opcodeZero
  /-- (b) `op = 0x7` to `0xF`. -/
  | opcodeUnassigned
  /-- (c) `op = 0x2` with `idx >= 8`. -/
  | epochIndex
  /-- (d) `op = 0x3` with `idx >= 4`. -/
  | candIndex
  /-- (e) `op = 0x4`, `0x5` or `0x6` with `idx != 0` or `imm8 != 0`. -/
  | operandNotZero
  deriving DecidableEq, Repr

/-- One row of the opcode table (R46): its mask, its match value, and how its operands are read from the word. -/
structure OpcodeRow where
  mask : CmdWord
  value : CmdWord
  read : CmdWord → Instr

/-- The six rows of R46 in the table's order. -/
def opcodeRows : List OpcodeRow :=
  [ { mask := 0xF000, value := 0x1000, read := fun w => .ldkey (w.extractLsb' 8 4) (w.extractLsb' 0 8) },
    { mask := 0xF800, value := 0x2000, read := fun w => .ldepoch (w.extractLsb' 8 3) (w.extractLsb' 0 8) },
    { mask := 0xFC00, value := 0x3000, read := fun w => .ldcand (w.extractLsb' 8 2) (w.extractLsb' 0 8) },
    { mask := 0xFFFF, value := 0x4000, read := fun _ => .compute },
    { mask := 0xFFFF, value := 0x5000, read := fun _ => .validate },
    { mask := 0xFFFF, value := 0x6000, read := fun _ => .clrkey } ]

/-- Does a word match a row: `W & mask == match` (R46). -/
def OpcodeRow.accepts (r : OpcodeRow) (w : CmdWord) : Bool := w &&& r.mask == r.value

/-- The class of a word that matches no row, by its `op` field (R47). -/
def illegalClass (w : CmdWord) : IllegalWord :=
  match (CmdFields.ofWord w).op.toNat with
  | 0 => .opcodeZero
  | 2 => .epochIndex
  | 3 => .candIndex
  | 4 | 5 | 6 => .operandNotZero
  | _ => .opcodeUnassigned

/-- The command of the first row of a list that the word matches, else the verdict illegal. -/
def decodeRows (w : CmdWord) : List OpcodeRow → Except IllegalWord Instr
  | [] => .error (illegalClass w)
  | r :: rs => if r.accepts w then .ok (r.read w) else decodeRows w rs

/-- Decode a command word: the command of the first (and only) row it matches, else the verdict illegal (R46, R47).
Decoding reads the 16 bits of the word and nothing else. -/
def decode (w : CmdWord) : Except IllegalWord Instr := decodeRows w opcodeRows

/-- The word of a command, from the encodings R52, R53, R54, R66, R68, R72 give (the patterns of R46). -/
def encode : Instr → CmdWord
  | .ldkey i b => 0b0001#4 ++ i ++ b
  | .ldepoch i b => 0b00100#5 ++ i ++ b
  | .ldcand i b => 0b001100#6 ++ i ++ b
  | .compute => 0x4000
  | .validate => 0x5000
  | .clrkey => 0x6000

/-- The command word of a table word's `nbits` bits. The unit has one instruction length, 16 bits (R44), and a word is
one value with no byte order (R34), so the table's bit numbering is the word's own. -/
def tableWord (nbits w : Nat) : CmdWord := BitVec.ofNat 16 (w % 2 ^ nbits)

/-- What `decode` reads from a table word. A row of more than 16 bits is no command (R44). -/
def decodeTableWord (nbits w : Nat) : Option Instr :=
  if nbits ≤ 16 then
    match decode (tableWord nbits w) with
    | .ok i => some i
    | .error _ => none
  else none

end Sys2Proof
end

