-- ==== Sys2Proof/Config.lean ====
section
/-! DEFINITION. The unit's parameters (R6): the constants the spec fixes, and the one parameter it leaves open, `Hmac`. -/

namespace Sys2Proof

/-- STEP_SECONDS (R6). -/
def Config.stepSeconds : BitVec 64 := 30

/-- DIGITS (R6): the number of decimal digits of a code. -/
def Config.digits : Nat := 6

/-- MODULUS (R6): 1,000,000 = 10^6 = 0xF4240. -/
def Config.modulus : BitVec 32 := 1000000

/-- OFFSET_MASK (R6). -/
def Config.offsetMask : Byte := 0x0F

/-- TRUNC_MASK (R6). -/
def Config.truncMask : BitVec 32 := 0x7FFFFFFF

/-- CODE_MAX (R6): the largest TotpCode, 999,999. -/
def Config.codeMax : BitVec 20 := 999999

/-- NOCODE (R6, R20): the pattern CODE holds when it holds no code, 0xFFFFF. -/
def Config.noCode : BitVec 20 := 0xFFFFF

/-- The type of the parameter `Hmac` (R8): a total function from a 16-byte key (KEY_BYTES) and an 8-byte message
(MSG_BYTES) to 20 bytes (DIGEST_BYTES), which depends on its two arguments and on nothing else. -/
abbrev HmacFn := Vector Byte 16 → Vector Byte 8 → Vector Byte 20

/-- The HMAC-SHA1 engine of this machine: the one OPEN parameter (R6, R8, U1 of 93_implementation_defined.md). It has no
body, so a statement about it holds whatever function the engine computes. Mark: DESIGN CHOICE for its form
(an opaque constant), safe; log entry 2. -/
opaque Config.hmac : HmacFn

end Sys2Proof
end

