-- ==== Sys2Proof/Machine/Operands.lean ====
section
/-! DEFINITION. The operand forms: one byte of a multi-byte value and one bit of a mask, and the byte order of every
multi-byte value (20_memory.md R34, R35). -/

namespace Sys2Proof.Machine

/-- The byte of `v` whose lowest bit is bit `lo`: the field `v[lo+7:lo]`. -/
def byteAt {w : Nat} (v : BitVec w) (lo : Nat) : Byte := v.extractLsb' lo 8

/-- `v` with the field `v[lo+7:lo]` replaced by `b`, the other bits unchanged. -/
def setByteAt {w : Nat} (v : BitVec w) (lo : Nat) (b : Byte) : BitVec w :=
  (v &&& ~~~((0xFF#8).setWidth w <<< lo)) ||| (b.setWidth w <<< lo)

/-- `v` with bit `n` set to 1 (the written masks: `KMASK[i] <- 1` and its like). -/
def setBit {w : Nat} (v : BitVec w) (n : Nat) : BitVec w := v ||| BitVec.twoPow w n

/-- The lowest bit of `EPOCHB[i] = EPOCH[63-8i : 56-8i]` (R14). -/
def epochLsb (i : BitVec 3) : Nat := 56 - 8 * i.toNat

/-- The lowest bit of `CANDB[i] = CAND[31-8i : 24-8i]` (R16). -/
def candLsb (i : BitVec 2) : Nat := 24 - 8 * i.toNat

/-- The big-endian bytes of an integer, byte 0 the most significant (R34). -/
def bytesBE (n : Nat) (v : BitVec (8 * n)) : Vector Byte n :=
  Vector.ofFn (fun i : Fin n => byteAt v (8 * (n - 1 - i.val)))

/-- `be64bytes(v)`: `B[i] = v[63-8i : 56-8i]` (00_scope.md section 5). -/
def be64bytes (v : BitVec 64) : Vector Byte 8 := bytesBE 8 v

/-- `be32(b0, b1, b2, b3) = b0*2^24 + b1*2^16 + b2*2^8 + b3` (00_scope.md section 5). -/
def be32 (b0 b1 b2 b3 : Byte) : BitVec 32 := b0 ++ b1 ++ b2 ++ b3

/-- A byte sequence as one bit vector, byte 0 on the most significant bits (R27). -/
def packBE {n : Nat} (bs : Vector Byte n) : BitVec (8 * n) :=
  bs.toList.foldl (fun acc b => acc <<< 8 ||| b.setWidth (8 * n)) 0

end Sys2Proof.Machine
end

