-- ==== Sys2Proof/Machine/Datapath.lean ====
section
/-! DEFINITION. The datapath (41_compute.md R56 to R63): counter serializer, 6-digit extractor, and the code comparator
(42_validate.md R67). The values of R23 appear here as functions; none is kept. `Hmac` is an argument, so that a table
of digests can stand in its place (U1). -/

namespace Sys2Proof.Machine

/-- `CTR = EPOCH div 30` (R56). -/
def counter (epoch : BitVec 64) : BitVec 64 := epoch / Config.stepSeconds

/-- `Serialize(e) = be64bytes(e div 30)`: the message `MSG` (R57, R63). -/
def serialize (epoch : BitVec 64) : Vector Byte 8 := be64bytes (counter epoch)

/-- `OFFSET = DIGEST[19] & 0x0F` (R59). -/
def truncOffset (d : Vector Byte 20) : BitVec 4 := (d[19] &&& Config.offsetMask).setWidth 4

/-- `RAWBITS`: the four digest bytes from `OFFSET` on, as a big-endian integer (R60). -/
def rawBits (d : Vector Byte 20) : BitVec 32 :=
  let o := truncOffset d
  be32 (d[o.toNat]'(by omega)) (d[o.toNat + 1]'(by omega)) (d[o.toNat + 2]'(by omega)) (d[o.toNat + 3]'(by omega))

/-- `TRUNC = RAWBITS & 0x7FFFFFFF` (R61). -/
def truncated (d : Vector Byte 20) : BitVec 32 := rawBits d &&& Config.truncMask

/-- `TRUNC mod 1000000`, held in 20 bits (R62). -/
def reduceToCode (trunc : BitVec 32) : BitVec 20 := (trunc % Config.modulus).setWidth 20

/-- `Extract(d)`: the value `CODEVAL` of a digest (R59 to R63). -/
def extract (d : Vector Byte 20) : BitVec 20 := reduceToCode (truncated d)

/-- `ComputeCode(k, e) = Extract(Hmac(k, Serialize(e)))` (R63). -/
def computeCode (hmac : HmacFn) (key : Vector Byte 16) (epoch : BitVec 64) : BitVec 20 :=
  extract (hmac key (serialize epoch))

/-- `Compare(c, cand)`: equality of unsigned 32-bit integers, all 32 bits compared (R67). -/
def compareCode (c : BitVec 20) (cand : BitVec 32) : Bit := if c.setWidth 32 = cand then 1 else 0

end Sys2Proof.Machine
end

