-- ==== Sys2Proof/Machine/State.lean ====
section
/-! DEFINITION. The machine's state (10_state.md): the unit's eleven registers (R10), and beside them the host's events
still to be issued (R25) and the record of HMAC invocations (R43); the state after reset (R31); why a step can stop. -/

namespace Sys2Proof.Machine

/-- What the host can do to the unit (R28): issue the word on `CMD`, or assert `RST`. -/
inductive HostEvent where
  | word (w : CmdWord)
  | reset
  deriving DecidableEq, Repr

/-- One HMAC invocation: the arguments handed to the engine (R43, R58). -/
structure HmacCall where
  key : Vector Byte 16
  msg : Vector Byte 8
  deriving DecidableEq, Repr

/-- The machine. The first eleven fields are the unit's registers and the whole of its state (R10). -/
structure State where
  /-- `KEY[0..15]` (R11). -/
  key : Vector Byte 16
  /-- `KMASK` (R12): bit `i` says that `KEY[i]` has been loaded. -/
  kmask : BitVec 16
  /-- `EPOCH`, also `EPOCHB[0..7]`, byte 0 the most significant (R14). -/
  epoch : BitVec 64
  /-- `EMASK` (R15). -/
  emask : BitVec 8
  /-- `CAND`, also `CANDB[0..3]`, byte 0 the most significant (R16). -/
  cand : BitVec 32
  /-- `CMASK` (R17). -/
  cmask : BitVec 4
  /-- `CODE` (R20). -/
  code : BitVec 20
  /-- `CODEV` (R20). -/
  codev : Bit
  /-- `MATCH` (R21). -/
  matchBit : Bit
  /-- `MATCHV` (R21). -/
  matchv : Bit
  /-- `ERR` (R22): bit 0 ILLEGAL, bit 1 NOKEY, bit 2 NOEPOCH, bit 3 NOCAND. -/
  err : BitVec 4
  /-- NOT the unit's: the events the host has still to issue, the next one first (R25, R9). DESIGN CHOICE, safe; log
  entry 1. -/
  host : List HostEvent
  /-- NOT the unit's: the HMAC invocations made so far, the first one first (R43). No rule reads it. DESIGN CHOICE,
  safe; log entry 3. -/
  calls : List HmacCall
  deriving DecidableEq, Repr

/-- The machine right after reset: the values of R31, nothing issued yet and no invocation recorded. -/
def State.reset : State where
  key := Vector.replicate 16 0x00
  kmask := 0x0000
  epoch := 0
  emask := 0x00
  cand := 0
  cmask := 0x0
  code := 0xFFFFF
  codev := 0
  matchBit := 0
  matchv := 0
  err := 0x0
  host := []
  calls := []

/-- Why the machine stops. The unit itself never stops: its four faults are bits of `ERR` and a faulting command gives a
next state (R79, R80). -/
inductive Fault where
  /-- Raised by `step` alone, when the host has no event left to issue: the run has ended (R9), and the unit "has no step
  of its own between commands" (R7). Safe: nothing is claimed of a step that does not happen. Log entry 4. -/
  | endOfRun
  deriving DecidableEq, Repr

/-- Why the model gives an instruction no meaning. -/
inductive Refusal where
  /-- For `exec`'s arm of an instruction that has no meaning yet; none is left. Safe: the machine stops. -/
  | notModelled (mnemonic : String)
  deriving DecidableEq, Repr

/-- The outcome of a command. -/
abbrev Outcome := Host.Outcome State Fault Refusal

end Sys2Proof.Machine
end

