-- ==== Sys2Proof/Machine/Flags.lean ====
section
/-! DEFINITION. The flag computations: the valid flags of the operands (R12, R15, R17) and the fault bits of a command
(10_state.md R22; 60_exceptions.md R75). -/

namespace Sys2Proof.Machine

/-- The bit of ILLEGAL, `ERR[0]` (R75). -/
def illegalBit : BitVec 4 := 0b0001

/-- The bit of NOKEY, `ERR[1]` (R75). -/
def noKeyBit : BitVec 4 := 0b0010

/-- The bit of NOEPOCH, `ERR[2]` (R75). -/
def noEpochBit : BitVec 4 := 0b0100

/-- The bit of NOCAND, `ERR[3]` (R75). -/
def noCandBit : BitVec 4 := 0b1000

/-- KEYV: all 16 key bytes have been loaded (R12). -/
def State.keyValid (s : State) : Bool := s.kmask == 0xFFFF

/-- EPOCHV: all 8 epoch bytes have been loaded (R15). -/
def State.epochValid (s : State) : Bool := s.emask == 0xFF

/-- CANDV: all 4 candidate bytes have been loaded (R17). -/
def State.candValid (s : State) : Bool := s.cmask == 0xF

/-- The faults of COMPUTE: NOKEY and NOEPOCH, every one that applies (R66, R78). -/
def State.computeFaults (s : State) : BitVec 4 :=
  (if s.keyValid then 0 else noKeyBit) ||| (if s.epochValid then 0 else noEpochBit)

/-- The faults of VALIDATE: those of COMPUTE, and NOCAND (R68, R78). -/
def State.validateFaults (s : State) : BitVec 4 :=
  s.computeFaults ||| (if s.candValid then 0 else noCandBit)

end Sys2Proof.Machine
end

