-- ==== Sys2Proof/Machine/Ops.lean ====
section
/-! DEFINITION. The named operations over the registers, one per kind of write the rules make: loading an operand byte,
the results, the HMAC port, raising a fault (R74), reset (R84), and taking the host's next event (R28). -/

namespace Sys2Proof.Machine

/-- `InvalidateResults()` (R24). -/
def State.invalidateResults (s : State) : State :=
  { s with code := Config.noCode, codev := 0, matchBit := 0, matchv := 0 }

/-- `raise Fault(bits)`: the single write `ERR <- ERR | bits` (R74). It is how this unit takes an exception: nothing is
saved, no mode changes and control goes nowhere (R79); there is no return from it (R80). -/
def State.raiseFault (s : State) (bits : BitVec 4) : State := { s with err := s.err ||| bits }

/-- A COMPUTE or VALIDATE with an operand missing: the fault, and the results invalidated (R79). -/
def State.faultCommand (s : State) (bits : BitVec 4) : State := (s.raiseFault bits).invalidateResults

/-- `KEY[i] <- b; KMASK[i] <- 1` (R52). -/
def State.loadKeyByte (s : State) (i : BitVec 4) (b : Byte) : State :=
  { s with key := s.key.set i.toNat b, kmask := setBit s.kmask i.toNat }

/-- `EPOCHB[i] <- b; EMASK[i] <- 1` (R53). -/
def State.loadEpochByte (s : State) (i : BitVec 3) (b : Byte) : State :=
  { s with epoch := setByteAt s.epoch (epochLsb i) b, emask := setBit s.emask i.toNat }

/-- `CANDB[i] <- b; CMASK[i] <- 1` (R54). -/
def State.loadCandByte (s : State) (i : BitVec 2) (b : Byte) : State :=
  { s with cand := setByteAt s.cand (candLsb i) b, cmask := setBit s.cmask i.toNat }

/-- All sixteen key bytes to 0x00 and `KMASK` to 0 (R72). -/
def State.clearKey (s : State) : State := { s with key := Vector.replicate 16 0x00, kmask := 0x0000 }

/-- The results of a successful COMPUTE: the code is valid and the match is not (R66). -/
def State.putCode (s : State) (c : BitVec 20) : State := { s with code := c, codev := 1, matchBit := 0, matchv := 0 }

/-- The results of a successful VALIDATE: the match is valid and the code is not shown (R68). -/
def State.putMatch (s : State) (m : Bit) : State :=
  { s with matchBit := m, matchv := 1, code := Config.noCode, codev := 0 }

/-- One invocation added at the end of the record (R43). -/
def State.recordCall (s : State) (c : HmacCall) : State := { s with calls := s.calls ++ [c] }

/-- The HMAC port (R58): hand `KEY` and `MSG` to the engine, take its digest back; one invocation. -/
def State.hmacExchange (hmac : HmacFn) (s : State) : Vector Byte 20 × State :=
  (hmac s.key (serialize s.epoch), s.recordCall { key := s.key, msg := serialize s.epoch })

/-- The code for the loaded key and epoch time, with the one invocation it takes (R56 to R63). -/
def State.deriveCode (hmac : HmacFn) (s : State) : BitVec 20 × State :=
  (extract (s.hmacExchange hmac).1, (s.hmacExchange hmac).2)

/-- An illegal word: ILLEGAL is raised and every other register keeps its value, the results included (R47, R79). -/
def State.illegalWord (s : State) : State := s.raiseFault illegalBit

/-- The reset step (R84): every register of the unit to its value of R31. The host's list and the record of
invocations are not registers and stay (log entry 3). -/
def State.assertReset (s : State) : State := { State.reset with host := s.host, calls := s.calls }

/-- Take the host's next event, if it has one to issue (R9, R25, R28). -/
def State.takeEvent (s : State) : Option (HostEvent × State) :=
  match s.host with
  | [] => none
  | ev :: rest => some (ev, { s with host := rest })

/-- The host with one more event, to be issued next. -/
def State.issueNext (s : State) (ev : HostEvent) : State := { s with host := ev :: s.host }

/-- `KEY[i]` as an optional byte: `none` where its mask bit is 0 and it holds no value (R18). -/
def State.keyByte? (s : State) (i : BitVec 4) : Option Byte :=
  if s.kmask.getLsbD i.toNat then some (s.key[i.toNat]'(by omega)) else none

/-- `EPOCHB[i]` as an optional byte (R18). -/
def State.epochByte? (s : State) (i : BitVec 3) : Option Byte :=
  if s.emask.getLsbD i.toNat then some (byteAt s.epoch (epochLsb i)) else none

/-- `CANDB[i]` as an optional byte (R18). -/
def State.candByte? (s : State) (i : BitVec 2) : Option Byte :=
  if s.cmask.getLsbD i.toNat then some (byteAt s.cand (candLsb i)) else none

end Sys2Proof.Machine
end

