-- ==== Sys2Proof/Machine/Compute.lean ====
section
/-! DEFINITION. The command COMPUTE (41_compute.md R66). -/

namespace Sys2Proof.Machine

/-- COMPUTE over any engine `hmac` (R66): with an operand missing, the faults that apply; else the code. -/
def State.computeWith (hmac : HmacFn) (s : State) : State :=
  if s.computeFaults = 0 then (s.deriveCode hmac).2.putCode (s.deriveCode hmac).1
  else s.faultCommand s.computeFaults

/-- COMPUTE (R66) with this machine's engine. -/
def execCompute (s : State) : Outcome := .next (s.computeWith Config.hmac)

end Sys2Proof.Machine
end

