-- ==== Sys2Proof/Machine/KeyLifecycle.lean ====
section
/-! DEFINITION. The command CLRKEY (43_key_lifecycle.md R72). -/

namespace Sys2Proof.Machine

/-- CLRKEY (R72): `EPOCH`, `EMASK`, `CAND`, `CMASK` and `ERR` do not change. -/
def execClrkey (s : State) : Outcome := .next s.clearKey.invalidateResults

end Sys2Proof.Machine
end

