-- ==== Sys2Proof/Machine/Loads.lean ====
section
/-! DEFINITION. The operand load commands LDKEY, LDEPOCH, LDCAND (40_operand_loads.md R52 to R55). -/

namespace Sys2Proof.Machine

/-- LDKEY i, b (R52). -/
def execLdkey (i : BitVec 4) (b : Byte) (s : State) : Outcome := .next (s.loadKeyByte i b).invalidateResults

/-- LDEPOCH i, b (R53). -/
def execLdepoch (i : BitVec 3) (b : Byte) (s : State) : Outcome := .next (s.loadEpochByte i b).invalidateResults

/-- LDCAND i, b (R54). -/
def execLdcand (i : BitVec 2) (b : Byte) (s : State) : Outcome := .next (s.loadCandByte i b).invalidateResults

end Sys2Proof.Machine
end

