-- ==== Sys2Proof/Machine/Validate.lean ====
section
/-! DEFINITION. The command VALIDATE (42_validate.md R68). -/

namespace Sys2Proof.Machine

/-- VALIDATE over any engine `hmac` (R68): with an operand missing, the faults that apply; else the comparison of the
code with `CAND`. -/
def State.validateWith (hmac : HmacFn) (s : State) : State :=
  if s.validateFaults = 0 then (s.deriveCode hmac).2.putMatch (compareCode (s.deriveCode hmac).1 s.cand)
  else s.faultCommand s.validateFaults

/-- VALIDATE (R68) with this machine's engine. -/
def execValidate (s : State) : Outcome := .next (s.validateWith Config.hmac)

end Sys2Proof.Machine
end

