-- ==== Sys2Proof/Machine/Dispatch.lean ====
section
/-! DEFINITION. One arm per command. -/

namespace Sys2Proof.Machine

def exec (i : Instr) (s : State) : Host.Outcome State Fault Refusal :=
  match i with
  | .ldkey k b => Sys2Proof.Machine.execLdkey k b s
  | .ldepoch k b => Sys2Proof.Machine.execLdepoch k b s
  | .ldcand k b => Sys2Proof.Machine.execLdcand k b s
  | .compute => Sys2Proof.Machine.execCompute s
  | .validate => Sys2Proof.Machine.execValidate s
  | .clrkey => Sys2Proof.Machine.execClrkey s

end Sys2Proof.Machine
end

