-- ==== Sys2Proof/Machine/Step.lean ====
section
/-! DEFINITION. One step of the machine: the host's next event, taken by the unit as one atomic step (00_scope.md R7;
10_state.md R28). -/

namespace Sys2Proof.Machine

/-- One step. The host issues a word: it is decoded, and executed, or raises ILLEGAL (R40, R46, R47). The host asserts
`RST`: the reset step (R84). The host has nothing left to issue: the run has ended (R9). -/
def step (s : State) : Host.Outcome State Fault Refusal :=
  match s.takeEvent with
  | none => .fault .endOfRun
  | some (.reset, s') => .next s'.assertReset
  | some (.word w, s') =>
    match decode w with
    | .ok i => exec i s'
    | .error _ => .next s'.illegalWord

/-- `s` with a table word as the next word the host issues. The unit holds no program and fetches nothing (R25, R42); a
word reaches it only from the host (log entry 8). -/
def State.withFetchWord (s : State) (nbits w : Nat) : State := s.issueNext (.word (tableWord nbits w))

end Sys2Proof.Machine
end

