-- ==== Sys2Proof/Machine/Assembler.lean ====
section
/-! DEFINITION. The assembler (30_encoding.md R49, R50): from a line of text to a source line, and from a source line to
its command words. Blanks and tabs separate, a comma stands by itself, and hexadecimal digits may be of either case:
DESIGN CHOICE, safe; log entry 9. -/

namespace Sys2Proof.Machine

/-- Split a line into its words and commas, dropping the comment that runs from `;` to the end of the line (R49).
`cur` holds the word being read, last character first. -/
def lexLine : List Char → List Char → List (List Char)
  | [], cur => if cur = [] then [] else [cur.reverse]
  | c :: cs, cur =>
    let done := if cur = [] then [] else [cur.reverse]
    if c = ';' then done
    else if c = ' ' ∨ c = '\t' then done ++ lexLine cs []
    else if c = ',' then done ++ [','] :: lexLine cs []
    else lexLine cs (c :: cur)

/-- The value of a digit in base 16, in base 10 for `'0'` to `'9'`. -/
def digitValue (c : Char) : Option Nat :=
  let n := c.toNat
  if 48 ≤ n ∧ n ≤ 57 then some (n - 48)
  else if 65 ≤ n ∧ n ≤ 70 then some (n - 55)
  else if 97 ≤ n ∧ n ≤ 102 then some (n - 87)
  else none

/-- The number a list of digits spells in base `base`, continuing from `acc`. -/
def digitsValue (base : Nat) : List Char → Nat → Option Nat
  | [], acc => some acc
  | c :: cs, acc =>
    match digitValue c with
    | some d => if d < base then digitsValue base cs (acc * base + d) else none
    | none => none

/-- A number: decimal, or hexadecimal with the prefix `0x` (R49). -/
def parseNumber : List Char → Option Nat
  | [] => none
  | '0' :: 'x' :: [] => none
  | '0' :: 'x' :: cs => digitsValue 16 cs 0
  | cs => digitsValue 10 cs 0

/-- Two operands separated by a comma. -/
def parsePair (mk : Nat → Nat → SourceLine) : List (List Char) → Option SourceLine
  | [a, [','], b] => (parseNumber a).bind (fun i => (parseNumber b).map (mk i))
  | _ => none

/-- One operand. -/
def parseOne (mk : Nat → SourceLine) : List (List Char) → Option SourceLine
  | [a] => (parseNumber a).map mk
  | _ => none

/-- No operand. -/
def parseNone (l : SourceLine) : List (List Char) → Option SourceLine
  | [] => some l
  | _ => none

/-- The numbers of a list of words separated by blanks. -/
def parseNumbers : List (List Char) → Option (List Nat)
  | [] => some []
  | t :: ts => (parseNumber t).bind (fun n => (parseNumbers ts).map (n :: ·))

/-- The source line a mnemonic and its operands spell (R49, R50). -/
def parseCommand (m : List Char) (args : List (List Char)) : Option SourceLine :=
  if m = "LDKEY".toList then parsePair .ldkey args
  else if m = "LDEPOCH".toList then parsePair .ldepoch args
  else if m = "LDCAND".toList then parsePair .ldcand args
  else if m = "COMPUTE".toList then parseNone .compute args
  else if m = "VALIDATE".toList then parseNone .validate args
  else if m = "CLRKEY".toList then parseNone .clrkey args
  else if m = ".word".toList then parseOne .rawWord args
  else if m = "KEY".toList then (parseNumbers args).map .key
  else if m = "EPOCH".toList then parseOne .epoch args
  else if m = "CAND".toList then parseOne .cand args
  else none

/-- The loads of a list of key bytes from index `i` on, in ascending index order (R50 a). -/
def expandKey : List Nat → Nat → List CmdWord
  | [], _ => []
  | b :: bs, i => encode (.ldkey (BitVec.ofNat 4 i) (BitVec.ofNat 8 b)) :: expandKey bs (i + 1)

/-- The eight loads of an epoch time, `LDEPOCH i, v[63-8i : 56-8i]` (R50 b). -/
def expandEpoch (v : BitVec 64) : List CmdWord :=
  [0, 1, 2, 3, 4, 5, 6, 7].map (fun i => encode (.ldepoch i (byteAt v (epochLsb i))))

/-- The four loads of a candidate, `LDCAND i, v[31-8i : 24-8i]` (R50 c). -/
def expandCand (v : BitVec 32) : List CmdWord :=
  [0, 1, 2, 3].map (fun i => encode (.ldcand i (byteAt v (candLsb i))))

/-- The command words of a source line: one, or a pseudo-command's expansion (R49, R50). -/
def expandLine : SourceLine → List CmdWord
  | .ldkey i b => [encode (.ldkey (BitVec.ofNat 4 i) (BitVec.ofNat 8 b))]
  | .ldepoch i b => [encode (.ldepoch (BitVec.ofNat 3 i) (BitVec.ofNat 8 b))]
  | .ldcand i b => [encode (.ldcand (BitVec.ofNat 2 i) (BitVec.ofNat 8 b))]
  | .compute => [encode .compute]
  | .validate => [encode .validate]
  | .clrkey => [encode .clrkey]
  | .rawWord w => [BitVec.ofNat 16 w]
  | .key bytes => expandKey bytes 0
  | .epoch v => expandEpoch (BitVec.ofNat 64 v)
  | .cand v => expandCand (BitVec.ofNat 32 v)

/-- The words of a checked source line; an operand out of its range is an assembly error (R49). -/
def assembleSource (l : SourceLine) : Option (List CmdWord) := if l.wellFormed then some (expandLine l) else none

/-- The words of a line of text; a line with no command (blank, or a comment alone) has none. -/
def assembleLine (text : List Char) : Option (List CmdWord) :=
  match lexLine text [] with
  | [] => some []
  | m :: args => (parseCommand m args).bind assembleSource

end Sys2Proof.Machine
end

