-- ==== Sys2Proof/Machine/Ports.lean ====
section
/-! DEFINITION. The ports (10_state.md R26, R27): the eight outputs the host observes, and the wide ports to the
HMAC-SHA1 block. All are functions of the state; reading one changes nothing (R26, R38). -/

namespace Sys2Proof.Machine

/-- The eight output ports (R26). -/
structure Ports where
  codeO : BitVec 20
  codevO : Bit
  matchO : Bit
  matchvO : Bit
  keyvO : Bit
  epochvO : Bit
  candvO : Bit
  errO : BitVec 4
  deriving DecidableEq, Repr

/-- What the host observes of a state (R26). -/
def State.ports (s : State) : Ports where
  codeO := s.code
  codevO := s.codev
  matchO := s.matchBit
  matchvO := s.matchv
  keyvO := BitVec.ofBool s.keyValid
  epochvO := BitVec.ofBool s.epochValid
  candvO := BitVec.ofBool s.candValid
  errO := s.err

/-- Port `HKEY` as one vector: `HKEY[i]` on bits `[127-8i : 120-8i]` (R27). Outside the step of a successful COMPUTE or
VALIDATE R27 says only that the port carries nothing a rule reads; the model gives it `KEY` in every state, the storage behind
unloaded bytes included. DESIGN CHOICE, unsafe to read as a fact of the wires; no rule reads it; log entry 12. -/
def State.hkeyPort (s : State) : BitVec 128 := packBE s.key

/-- Port `HMSG` as one vector: `HMSG[i]` on bits `[63-8i : 56-8i]` (R27). In every state the message of the `EPOCH` storage;
outside the step of a successful COMPUTE or VALIDATE that is the model's choice. DESIGN CHOICE, as for `HKEY`; log entry 12. -/
def State.hmsgPort (s : State) : BitVec 64 := packBE (serialize s.epoch)

/-- `DIGEST` from port `HDIGEST` as one vector: `HDIGEST[i]` on bits `[159-8i : 152-8i]` (R27). -/
def digestOfPort (v : BitVec 160) : Vector Byte 20 := bytesBE 20 v

end Sys2Proof.Machine
end

