-- ==== Sys2Proof/Safety.lean ====
section
/-! DEFINITION. What counts as a safe state and a safe run, in the terms statements use: the invariants the spec states
(10_state.md R18, R32) and a run without a fault (60_exceptions.md R80). -/

namespace Sys2Proof

open Sys2Proof.Machine

/-- The invariants (a) to (e) of R32. -/
structure UnitInv (s : State) : Prop where
  /-- (a) `CODEV` and `MATCHV` are never both 1. -/
  notBoth : ¬ (s.codev = 1 ∧ s.matchv = 1)
  /-- (b) `CODEV = 0` if and only if `CODE = 0xFFFFF`. -/
  codeFlag : s.codev = 0 ↔ s.code = 0xFFFFF
  /-- (b) If `CODEV = 1` then `CODE <= 999999`. -/
  codeRange : s.codev = 1 → s.code.toNat ≤ 999999
  /-- (c) If `MATCHV = 0` then `MATCH = 0`. -/
  matchClear : s.matchv = 0 → s.matchBit = 0
  /-- (d) A valid code is the code of the present key and epoch time. -/
  codeCurrent : s.codev = 1 →
    s.kmask = 0xFFFF ∧ s.emask = 0xFF ∧ s.code = computeCode Config.hmac s.key s.epoch
  /-- (e) A valid match is the comparison of the present operands. -/
  matchCurrent : s.matchv = 1 →
    s.kmask = 0xFFFF ∧ s.emask = 0xFF ∧ s.cmask = 0xF ∧
      (s.matchBit = 1 ↔ (computeCode Config.hmac s.key s.epoch).setWidth 32 = s.cand)

/-- The storage behind an operand byte whose mask bit is 0 holds 0x00 (R18). -/
structure UnloadedZero (s : State) : Prop where
  key : ∀ i : BitVec 4, s.kmask.getLsbD i.toNat = false → s.key[i.toNat] = 0x00
  epoch : ∀ i : BitVec 3, s.emask.getLsbD i.toNat = false → byteAt s.epoch (epochLsb i) = 0x00
  cand : ∀ i : BitVec 2, s.cmask.getLsbD i.toNat = false → byteAt s.cand (candLsb i) = 0x00

/-- Item (f) of R32 between two states: `t` has every fault bit that `s` has. -/
def ErrKept (s t : State) : Prop := ∀ n : Nat, s.err.getLsbD n = true → t.err.getLsbD n = true

/-- A run has had no fault exactly when `ERR_O = 0` at its end (R80). -/
def FaultFree (s : State) : Prop := s.ports.errO = 0

/-- A run (R9): the host issues the events one at a time, each taken to completion by one step before the next. What the
host has still to issue besides stays as it is. -/
def runEvents : List HostEvent → State → Host.Outcome State Fault Refusal
  | [], s => .next s
  | ev :: evs, s =>
    match step (s.issueNext ev) with
    | .next t => runEvents evs t
    | .fault f => .fault f
    | .refused r => .refused r

end Sys2Proof
end

