-- ==== Sys2Proof/Certificates/Slice0/Obligations.lean ====
section
/-! DEFINITION. The statements for the provers, each from the numbered rules its docstring names, and the vocabulary they
are said in. -/

namespace Sys2Proof.Claims

open Sys2Proof.Machine

/-- The six operand registers and masks are the same (R10). -/
abbrev SameOperands (s t : State) : Prop :=
  t.key = s.key ∧ t.kmask = s.kmask ∧ t.epoch = s.epoch ∧ t.emask = s.emask ∧ t.cand = s.cand ∧ t.cmask = s.cmask

/-- The four result registers are the same (R10). -/
abbrev SameResults (s t : State) : Prop :=
  t.code = s.code ∧ t.codev = s.codev ∧ t.matchBit = s.matchBit ∧ t.matchv = s.matchv

/-- All eleven registers of the unit are the same (R10). -/
abbrev SameRegisters (s t : State) : Prop := SameOperands s t ∧ SameResults s t ∧ t.err = s.err

/-- What is not the unit's is the same: the host's list, and the record of invocations (no invocation was made). -/
abbrev SameOutside (s t : State) : Prop := t.host = s.host ∧ t.calls = s.calls

/-- What `InvalidateResults()` leaves (R24). -/
abbrev ResultsInvalid (t : State) : Prop := t.code = 0xFFFFF ∧ t.codev = 0 ∧ t.matchBit = 0 ∧ t.matchv = 0

/-- Every key byte has been loaded. -/
abbrev KeyLoaded (s : State) : Prop := ∀ i : BitVec 4, s.kmask.getLsbD i.toNat = true

/-- Every epoch byte has been loaded. -/
abbrev EpochLoaded (s : State) : Prop := ∀ i : BitVec 3, s.emask.getLsbD i.toNat = true

/-- Every candidate byte has been loaded. -/
abbrev CandLoaded (s : State) : Prop := ∀ i : BitVec 2, s.cmask.getLsbD i.toNat = true

/-- Byte `i` of a digest as a number. -/
def digestNat (d : Vector Byte 20) (i : Nat) : Nat := (d.toList.getD i 0).toNat

/-- R59 to R61 as arithmetic on numbers: the truncated value of a digest. -/
def truncNat (d : Vector Byte 20) : Nat :=
  let o := digestNat d 19 % 16
  (digestNat d o * 2 ^ 24 + digestNat d (o + 1) * 2 ^ 16 + digestNat d (o + 2) * 2 ^ 8 + digestNat d (o + 3)) % 2 ^ 31

/-- `m` is the message of the epoch time `e`: `e div 30` in 8 big-endian bytes (R56, R57), as arithmetic on numbers. -/
def IsMessage (e : BitVec 64) (m : Vector Byte 8) : Prop :=
  ∀ i : Fin 8, (m[i]).toNat = e.toNat / 30 / 256 ^ (7 - i.val) % 256

/-- One invocation of the engine with the present key and the message of the present time, whose digest is `d` (R58). -/
def OneCall (s t : State) (d : Vector Byte 20) : Prop :=
  ∃ m, IsMessage s.epoch m ∧ t.calls = s.calls ++ [{ key := s.key, msg := m }] ∧ d = Config.hmac s.key m

/-- `t.err` is `s.err` with the bits `n` for which `cause n` holds set (R74). -/
def ErrGains (s t : State) (cause : Nat → Prop) : Prop :=
  ∀ n < 4, (t.err.getLsbD n = true ↔ s.err.getLsbD n = true ∨ cause n)

/-- The causes of NOKEY, NOEPOCH and, where the command is VALIDATE, NOCAND (R75). -/
def MissingOperand (s : State) (validating : Prop) (n : Nat) : Prop :=
  (n = 1 ∧ ¬ KeyLoaded s) ∨ (n = 2 ∧ ¬ EpochLoaded s) ∨ (n = 3 ∧ validating ∧ ¬ CandLoaded s)

/-- The causes of all four faults for the word `w` (R75). -/
def Cause (s : State) (w : CmdWord) (n : Nat) : Prop :=
  (n = 0 ∧ ∃ e, decode w = .error e) ∨ ((w = 0x4000 ∨ w = 0x5000) ∧ MissingOperand s (w = 0x5000) n)

/-- Commands one after the other. -/
def execAll : List Instr → State → Host.Outcome State Fault Refusal
  | [], s => .next s
  | i :: is, s =>
    match exec i s with
    | .next t => execAll is t
    | .fault f => .fault f
    | .refused r => .refused r

/-- The five ranges of R47, in the rule's own numbers. -/
def IllegalRange (n : Nat) : Prop :=
  n ≤ 0x0FFF ∨ (0x7000 ≤ n ∧ n ≤ 0xFFFF) ∨ (0x2800 ≤ n ∧ n ≤ 0x2FFF) ∨ (0x3400 ≤ n ∧ n ≤ 0x3FFF) ∨
    (0x4001 ≤ n ∧ n ≤ 0x4FFF) ∨ (0x5001 ≤ n ∧ n ≤ 0x5FFF) ∨ (0x6001 ≤ n ∧ n ≤ 0x6FFF)

/-- What an event makes of the last loaded value of `KEY[i]` (R55): a LDKEY of that index gives its byte, CLRKEY and reset
take it away. -/
def keyTrace (i : BitVec 4) (acc : Option Byte) : HostEvent → Option Byte
  | .reset => none
  | .word w =>
    match decode w with
    | .ok (.ldkey j b) => if j = i then some b else acc
    | .ok .clrkey => none
    | _ => acc

/-- The same for `EPOCHB[i]` (R55): only reset takes it away. -/
def epochTrace (i : BitVec 3) (acc : Option Byte) : HostEvent → Option Byte
  | .reset => none
  | .word w =>
    match decode w with
    | .ok (.ldepoch j b) => if j = i then some b else acc
    | _ => acc

/-- The same for `CANDB[i]` (R55). -/
def candTrace (i : BitVec 2) (acc : Option Byte) : HostEvent → Option Byte
  | .reset => none
  | .word w =>
    match decode w with
    | .ok (.ldcand j b) => if j = i then some b else acc
    | _ => acc

/-- Two states that agree on everything but the storage behind unloaded operand bytes (R18). -/
abbrev SameView (s t : State) : Prop :=
  (∀ i, t.keyByte? i = s.keyByte? i) ∧ (∀ i, t.epochByte? i = s.epochByte? i) ∧ (∀ i, t.candByte? i = s.candByte? i) ∧
    SameResults s t ∧ t.err = s.err ∧ SameOutside s t

/-- Two states of the unit that agree on everything but the key bytes; the records of invocations may differ. -/
abbrev SameButKey (s t : State) : Prop :=
  t.kmask = s.kmask ∧ t.epoch = s.epoch ∧ t.emask = s.emask ∧ t.cand = s.cand ∧ t.cmask = s.cmask ∧ SameResults s t ∧
    t.err = s.err ∧ t.host = s.host

end Sys2Proof.Claims

open Sys2Proof Sys2Proof.Machine Sys2Proof.Claims

/-! ## Reset and the step -/

/-- R31: every register after reset, and what the ports then read. -/
def Obligations.ResetLeavesTheStatedValues : Prop :=
  (∀ i : Fin 16, State.reset.key[i] = 0x00) ∧ State.reset.kmask = 0x0000 ∧ State.reset.epoch = 0 ∧
    State.reset.emask = 0x00 ∧ State.reset.cand = 0 ∧ State.reset.cmask = 0x0 ∧ State.reset.code = 0xFFFFF ∧
    State.reset.codev = 0 ∧ State.reset.matchBit = 0 ∧ State.reset.matchv = 0 ∧ State.reset.err = 0x0 ∧
    State.reset.ports.codeO = 0xFFFFF ∧ State.reset.ports.codevO = 0 ∧ State.reset.ports.matchO = 0 ∧
    State.reset.ports.matchvO = 0 ∧ State.reset.ports.keyvO = 0 ∧ State.reset.ports.epochvO = 0 ∧
    State.reset.ports.candvO = 0 ∧ State.reset.ports.errO = 0x0

/-- R84: the reset step writes every register to its value of R31 from any state and adds no invocation, and no command
word clears a bit of `ERR`, so that reset is the only thing that does. -/
def Obligations.ResetStepWritesEveryRegister : Prop :=
  (∀ s rest, s.host = .reset :: rest →
    ∃ t, step s = .next t ∧ SameRegisters State.reset t ∧ t.err = 0 ∧ t.calls <+: s.calls) ∧
  (∀ s w rest t, s.host = .word w :: rest → step s = .next t → ErrKept s t)

/-- The machine's step (R28, R40, R46): a word that decodes to a command is taken from the host's list and executed, and
nothing else happens; the same for a word placed by `withFetchWord`. The host's list is the model's form (log entry 1). -/
def Obligations.StepRunsTheDecodedCommand : Prop :=
  (∀ s w rest i, s.host = .word w :: rest → decode w = .ok i → step s = exec i { s with host := rest }) ∧
  (∀ s nbits w i, decodeTableWord nbits w = some i → step (s.withFetchWord nbits w) = exec i s)

/-- Every event the host issues is taken and gives a next state, whatever the state (R28 "the unit always accepts it",
R80 "The unit does not stop on a fault"), and takes exactly that event from the host's list; with no event there is no
step, which the model says by the fault `endOfRun` (log entries 1 and 4). -/
def Obligations.EveryEventIsTaken : Prop :=
  (∀ s ev rest, s.host = ev :: rest → ∃ t, step s = .next t ∧ t.host = rest) ∧
  (∀ s, s.host = [] → step s = .fault .endOfRun) ∧
  (∀ i s, ∃ t, exec i s = .next t ∧ t.host = s.host)

/-! ## Encoding -/

/-- R45, R46, R47: twelve legal words of 95_test_vectors.md section 2.1 decode to the commands listed there, and eight of its
seventeen illegal words to no command. Section 2.1 says just that they are illegal; the class each is given is R47's, its name
the model's choice (log entry 10). -/
def Obligations.SpecWordsDecodeAsListed : Prop :=
  decode 0x1000 = .ok (.ldkey 0 0x00) ∧ decode 0x1334 = .ok (.ldkey 3 0x34) ∧ decode 0x1FFF = .ok (.ldkey 15 0xFF) ∧
    decode 0x2000 = .ok (.ldepoch 0 0x00) ∧ decode 0x273B = .ok (.ldepoch 7 0x3B) ∧
    decode 0x27FF = .ok (.ldepoch 7 0xFF) ∧ decode 0x3000 = .ok (.ldcand 0 0x00) ∧
    decode 0x336A = .ok (.ldcand 3 0x6A) ∧ decode 0x33FF = .ok (.ldcand 3 0xFF) ∧ decode 0x4000 = .ok .compute ∧
    decode 0x5000 = .ok .validate ∧ decode 0x6000 = .ok .clrkey ∧ decode 0x0000 = .error .opcodeZero ∧
    decode 0x2800 = .error .epochIndex ∧ decode 0x3400 = .error .candIndex ∧ decode 0x4001 = .error .operandNotZero ∧
    decode 0x5080 = .error .operandNotZero ∧ decode 0x6100 = .error .operandNotZero ∧
    decode 0x7000 = .error .opcodeUnassigned ∧ decode 0xFFFF = .error .opcodeUnassigned

/-- R46 with R45: a word decodes to the command of the row it matches, its operands the fields of the word; no word
matches two rows; a word that matches none decodes to no command. -/
def Obligations.WordDecodesByItsRow : Prop :=
  (∀ w : CmdWord,
    (w &&& 0xF000 = 0x1000 → ∃ i b, decode w = .ok (.ldkey i b) ∧
      i.toNat = w.toNat / 256 % 16 ∧ b.toNat = w.toNat % 256) ∧
    (w &&& 0xF800 = 0x2000 → ∃ i b, decode w = .ok (.ldepoch i b) ∧
      i.toNat = w.toNat / 256 % 16 ∧ b.toNat = w.toNat % 256) ∧
    (w &&& 0xFC00 = 0x3000 → ∃ i b, decode w = .ok (.ldcand i b) ∧
      i.toNat = w.toNat / 256 % 16 ∧ b.toNat = w.toNat % 256) ∧
    (w &&& 0xFFFF = 0x4000 → decode w = .ok .compute) ∧
    (w &&& 0xFFFF = 0x5000 → decode w = .ok .validate) ∧
    (w &&& 0xFFFF = 0x6000 → decode w = .ok .clrkey) ∧
    (w &&& 0xF000 ≠ 0x1000 → w &&& 0xF800 ≠ 0x2000 → w &&& 0xFC00 ≠ 0x3000 → w ≠ 0x4000 → w ≠ 0x5000 → w ≠ 0x6000 →
      ∃ e, decode w = .error e)) ∧
  (∀ (m n : Fin opcodeRows.length) (w : CmdWord),
    (opcodeRows.get m).accepts w = true → (opcodeRows.get n).accepts w = true → m = n)

/-- R47: the illegal words are exactly the five listed ranges; their number and that of the legal words; executing one
raises ILLEGAL and changes nothing else. -/
def Obligations.IllegalWordsAreExactlyTheListed : Prop :=
  (∀ w : CmdWord, (∃ e, decode w = .error e) ↔ IllegalRange w.toNat) ∧
  Nat.card { w : CmdWord // ∃ i, decode w = .ok i } = 7171 ∧
  Nat.card { w : CmdWord // ∃ e, decode w = .error e } = 58365 ∧
  (∀ s w rest, s.host = .word w :: rest → IllegalRange w.toNat →
    ∃ t, step s = .next t ∧ ErrGains s t (fun n => n = 0) ∧ SameOperands s t ∧ SameResults s t ∧ t.calls = s.calls)

/-- Decoding the word of a command gives the command back, for every command with every operand, and a word that decodes
to a command is that command's word (R45, R46): no bit of an encoding is dropped. -/
def Obligations.DecodeAndEncodeAgree : Prop :=
  (∀ i, decode (encode i) = .ok i) ∧ (∀ w i, decode w = .ok i → encode i = w)

/-- Decoding succeeds exactly on the words whose fields are well formed by the table of R46 (R45, R47). -/
def Obligations.DecodeAcceptsWellFormedFields : Prop :=
  ∀ w : CmdWord, (∃ i, decode w = .ok i) ↔ (CmdFields.ofWord w).wellFormed = true

/-! ## The operand loads -/

/-- R52: LDKEY i, b completes in every state; its word; the one byte and the one mask bit it writes; the results it
invalidates; everything it leaves. -/
def Obligations.LdkeyWritesOneKeyByte : Prop :=
  ∀ (i : BitVec 4) (b : Byte),
    (∀ w, decode w = .ok (.ldkey i b) ↔ w.toNat = 0x1000 + i.toNat * 256 + b.toNat) ∧
    ∀ s, ∃ t, exec (.ldkey i b) s = .next t ∧
      t.key[i.toNat] = b ∧ (∀ j : BitVec 4, j ≠ i → t.key[j.toNat] = s.key[j.toNat]) ∧
      t.kmask.getLsbD i.toNat = true ∧ (∀ n, n ≠ i.toNat → t.kmask.getLsbD n = s.kmask.getLsbD n) ∧
      ResultsInvalid t ∧ t.epoch = s.epoch ∧ t.emask = s.emask ∧ t.cand = s.cand ∧ t.cmask = s.cmask ∧
      t.err = s.err ∧ SameOutside s t

/-- R53: LDEPOCH i, b completes in every state; its word; `EPOCH[63-8i : 56-8i] <- b` with the other 56 bits unchanged; its
mask bit; the results it invalidates; everything it leaves. -/
def Obligations.LdepochWritesOneEpochByte : Prop :=
  ∀ (i : BitVec 3) (b : Byte),
    (∀ w, decode w = .ok (.ldepoch i b) ↔ w.toNat = 0x2000 + i.toNat * 256 + b.toNat) ∧
    ∀ s, ∃ t, exec (.ldepoch i b) s = .next t ∧
      t.epoch.extractLsb' (56 - 8 * i.toNat) 8 = b ∧
      (∀ n, ¬ (56 - 8 * i.toNat ≤ n ∧ n ≤ 63 - 8 * i.toNat) → t.epoch.getLsbD n = s.epoch.getLsbD n) ∧
      t.emask.getLsbD i.toNat = true ∧ (∀ n, n ≠ i.toNat → t.emask.getLsbD n = s.emask.getLsbD n) ∧
      ResultsInvalid t ∧ t.key = s.key ∧ t.kmask = s.kmask ∧ t.cand = s.cand ∧ t.cmask = s.cmask ∧
      t.err = s.err ∧ SameOutside s t

/-- R54: LDCAND i, b completes in every state; its word; `CAND[31-8i : 24-8i] <- b` with the other 24 bits unchanged; its
mask bit; the results it invalidates; everything it leaves. -/
def Obligations.LdcandWritesOneCandidateByte : Prop :=
  ∀ (i : BitVec 2) (b : Byte),
    (∀ w, decode w = .ok (.ldcand i b) ↔ w.toNat = 0x3000 + i.toNat * 256 + b.toNat) ∧
    ∀ s, ∃ t, exec (.ldcand i b) s = .next t ∧
      t.cand.extractLsb' (24 - 8 * i.toNat) 8 = b ∧
      (∀ n, ¬ (24 - 8 * i.toNat ≤ n ∧ n ≤ 31 - 8 * i.toNat) → t.cand.getLsbD n = s.cand.getLsbD n) ∧
      t.cmask.getLsbD i.toNat = true ∧ (∀ n, n ≠ i.toNat → t.cmask.getLsbD n = s.cmask.getLsbD n) ∧
      ResultsInvalid t ∧ t.key = s.key ∧ t.kmask = s.kmask ∧ t.epoch = s.epoch ∧ t.emask = s.emask ∧
      t.err = s.err ∧ SameOutside s t

/-- R55, R18: over any list of events from any state, each operand byte, seen as an optional byte, is the byte of its last
load since the last reset (for the key, the last CLRKEY too), and otherwise what it was. -/
def Obligations.OperandsHoldTheLastLoads : Prop :=
  ∀ s evs, ∃ t, runEvents evs s = .next t ∧
    (∀ i, t.keyByte? i = evs.foldl (keyTrace i) (s.keyByte? i)) ∧
    (∀ i, t.epochByte? i = evs.foldl (epochTrace i) (s.epochByte? i)) ∧
    (∀ i, t.candByte? i = evs.foldl (candTrace i) (s.candByte? i))

/-! ## The datapath -/

/-- R56: the counter is the epoch time divided by 30, at most the epoch time and below 2^60; its largest value; every
time of one step has one counter. -/
def Obligations.CounterIsEpochDivThirty : Prop :=
  (∀ e, (counter e).toNat = e.toNat / 30 ∧ (counter e).toNat ≤ e.toNat ∧ (counter e).toNat < 2 ^ 60) ∧
  (counter 0xFFFFFFFFFFFFFFFF).toNat = 614891469123651720 ∧
  (∀ (e : BitVec 64) (c : Nat), 30 * c ≤ e.toNat → e.toNat ≤ 30 * c + 29 → (counter e).toNat = c)

/-- R57: the message is the counter in 8 big-endian bytes; none is forced to zero: the top four are zero exactly for the
epoch times below 30 * 2^32; the first is at most 0x08. -/
def Obligations.MessageIsTheWholeCounterBigEndian : Prop :=
  ∀ e : BitVec 64, IsMessage e (serialize e) ∧ (serialize e)[0].toNat ≤ 8 ∧
    ((serialize e)[0] = 0 ∧ (serialize e)[1] = 0 ∧ (serialize e)[2] = 0 ∧ (serialize e)[3] = 0 ↔
      e.toNat < 128849018880)

/-- R59 to R62: offset, raw bits, truncated value and code of any 20 bytes, as arithmetic on numbers. -/
def Obligations.ExtractorFollowsItsFourSteps : Prop :=
  ∀ d : Vector Byte 20,
    (truncOffset d).toNat = digestNat d 19 % 16 ∧
    (rawBits d).toNat = digestNat d (truncOffset d).toNat * 2 ^ 24 + digestNat d ((truncOffset d).toNat + 1) * 2 ^ 16 +
      digestNat d ((truncOffset d).toNat + 2) * 2 ^ 8 + digestNat d ((truncOffset d).toNat + 3) ∧
    (truncated d).toNat = (if (rawBits d).toNat < 2 ^ 31 then (rawBits d).toNat else (rawBits d).toNat - 2 ^ 31) ∧
    (extract d).toNat = (truncated d).toNat % 1000000 ∧ (extract d).toNat ≤ 999999

/-- R36, R59: the slice never includes `DIGEST[19]` and its high nibble is used nowhere: two digests that agree on bytes 0
to 18 and on the low nibble of byte 19 have the same code. -/
def Obligations.SliceNeverIncludesTheLastByte : Prop :=
  ∀ d d' : Vector Byte 20, (∀ i : Fin 19, d[i.val] = d'[i.val]) → d[19].toNat % 16 = d'[19].toNat % 16 →
    extract d = extract d'

/-- R64 (f): each code from 0 to 483,647 is the image of 2,148 truncated values, each from 483,648 to 999,999 of 2,147. -/
def Obligations.ReductionImagesAreCounted : Prop :=
  ∀ c : Nat, c ≤ 999999 →
    Nat.card { t : BitVec 32 // t.toNat < 2 ^ 31 ∧ (reduceToCode t).toNat = c } = if c ≤ 483647 then 2148 else 2147

/-- R67: the comparison is equality of unsigned integers over all 32 bits, with its consequences (a) and (b). -/
def Obligations.CompareIsExactIntegerEquality : Prop :=
  ∀ (c : BitVec 20) (cand : BitVec 32),
    (compareCode c cand = 1 ↔ c.toNat = cand.toNat) ∧ (compareCode c cand = 0 ↔ c.toNat ≠ cand.toNat) ∧
    (c.toNat ≤ 999999 → 999999 < cand.toNat → compareCode c cand = 0) ∧
    (cand.toNat % 2 ^ 20 = c.toNat → cand.toNat / 2 ^ 20 ≠ 0 → compareCode c cand = 0)

/-- R65: determinism within a step, range, and idempotence, for any engine. -/
def Obligations.CodeIsDeterministicAndInRange : Prop :=
  (∀ (hmac : HmacFn) k t1 t2, t1.toNat / 30 = t2.toNat / 30 → computeCode hmac k t1 = computeCode hmac k t2) ∧
  (∀ (hmac : HmacFn) k t, (computeCode hmac k t).toNat ≤ 999999) ∧
  (∀ s t, exec .compute s = .next t → SameOperands s t ∧ ∃ u, exec .compute t = .next u ∧ SameRegisters t u)

/-- R14, R16, R34: byte `i` of `EPOCH` and of `CAND` is the big-endian byte `i` of the integer, byte 0 the most significant,
and two values with the same bytes are the same value. -/
def Obligations.OperandBytesAreBigEndian : Prop :=
  (∀ (v : BitVec 64) (i : BitVec 3), (byteAt v (epochLsb i)).toNat = v.toNat / 256 ^ (7 - i.toNat) % 256) ∧
  (∀ (v : BitVec 32) (i : BitVec 2), (byteAt v (candLsb i)).toNat = v.toNat / 256 ^ (3 - i.toNat) % 256) ∧
  (∀ v v' : BitVec 64, (∀ i, byteAt v (epochLsb i) = byteAt v' (epochLsb i)) → v = v') ∧
  (∀ v v' : BitVec 32, (∀ i, byteAt v (candLsb i) = byteAt v' (candLsb i)) → v = v')

/-- R56, R57, R69: two epoch times give the engine the same message exactly when they lie in the same step of 30 seconds,
and VALIDATE at any time of one step does the same. -/
def Obligations.OneStepHasOneMessage : Prop :=
  (∀ e e' : BitVec 64, serialize e = serialize e' ↔ e.toNat / 30 = e'.toNat / 30) ∧
  (∀ s t e', e'.toNat / 30 = s.epoch.toNat / 30 → exec .validate s = .next t →
    ∃ u, exec .validate { s with epoch := e' } = .next u ∧ SameResults t u ∧ u.err = t.err ∧ u.calls = t.calls)

/-! ## COMPUTE, VALIDATE, CLRKEY -/

/-- R66: COMPUTE with key and epoch time loaded completes with the code of the digest (R56 to R62) and one invocation; with
one or both missing it raises every fault that applies, invalidates the results and makes no invocation. -/
def Obligations.ComputeDerivesTheCodeOrFaults : Prop :=
  (∀ w, decode w = .ok .compute ↔ w = 0x4000) ∧
  (∀ s, KeyLoaded s → EpochLoaded s → ∃ t d, exec .compute s = .next t ∧ OneCall s t d ∧
    t.code.toNat = truncNat d % 1000000 ∧ t.codev = 1 ∧ t.matchBit = 0 ∧ t.matchv = 0 ∧ SameOperands s t ∧
    t.err = s.err ∧ t.host = s.host) ∧
  (∀ s, ¬ (KeyLoaded s ∧ EpochLoaded s) → ∃ t, exec .compute s = .next t ∧ ResultsInvalid t ∧
    ErrGains s t (MissingOperand s False) ∧ SameOperands s t ∧ SameOutside s t)

/-- R68: VALIDATE with all three operands loaded completes with the comparison of the code and `CAND` and one invocation,
and shows no code; with an operand missing it raises every fault that applies, invalidates the results and makes no
invocation. -/
def Obligations.ValidateComparesOrFaults : Prop :=
  (∀ w, decode w = .ok .validate ↔ w = 0x5000) ∧
  (∀ s, KeyLoaded s → EpochLoaded s → CandLoaded s → ∃ t d, exec .validate s = .next t ∧ OneCall s t d ∧
    (t.matchBit = 1 ↔ s.cand.toNat = truncNat d % 1000000) ∧ t.matchv = 1 ∧ t.code = 0xFFFFF ∧ t.codev = 0 ∧
    SameOperands s t ∧ t.err = s.err ∧ t.host = s.host) ∧
  (∀ s, ¬ (KeyLoaded s ∧ EpochLoaded s ∧ CandLoaded s) → ∃ t, exec .validate s = .next t ∧ ResultsInvalid t ∧
    ErrGains s t (MissingOperand s True) ∧ SameOperands s t ∧ SameOutside s t)

/-- R72: CLRKEY completes in every state: all key bytes 0x00, `KMASK` 0, the results invalid, everything else as it was; the
next COMPUTE then raises NOKEY. -/
def Obligations.ClrkeyOverwritesTheKey : Prop :=
  (∀ w, decode w = .ok .clrkey ↔ w = 0x6000) ∧
  ∀ s, ∃ t, exec .clrkey s = .next t ∧ (∀ i : BitVec 4, t.key[i.toNat] = 0x00) ∧ (∀ n, t.kmask.getLsbD n = false) ∧
    ResultsInvalid t ∧ t.ports.keyvO = 0 ∧ t.epoch = s.epoch ∧ t.emask = s.emask ∧ t.cand = s.cand ∧
    t.cmask = s.cmask ∧ t.err = s.err ∧ SameOutside s t ∧
    (∃ u, exec .compute t = .next u ∧ u.err.getLsbD 1 = true ∧ u.calls = s.calls) ∧
    (∃ u, exec .clrkey t = .next u ∧ u = t)

/-- R71: with key and epoch time loaded, after COMPUTE gave a code, the four loads of a candidate `v` and VALIDATE give
`MATCH = 1` exactly when `v` equals the code; (a) `v` the code; (b) `v` the code plus 1 modulo 10^6, without exception. -/
def Obligations.ValidationIsCorrect : Prop :=
  ∀ s (v : BitVec 32), KeyLoaded s → EpochLoaded s →
    ∃ t u, exec .compute s = .next t ∧
      execAll [.ldcand 0 (v.extractLsb' 24 8), .ldcand 1 (v.extractLsb' 16 8), .ldcand 2 (v.extractLsb' 8 8),
        .ldcand 3 (v.extractLsb' 0 8), .validate] t = .next u ∧
      t.codev = 1 ∧ u.matchv = 1 ∧ u.cand = v ∧ u.err = s.err ∧
      (u.matchBit = 1 ↔ v.toNat = t.code.toNat) ∧
      (v.toNat = t.code.toNat → u.matchBit = 1) ∧
      (v.toNat = (t.code.toNat + 1) % 1000000 → u.matchBit = 0)

/-- R38: a load issued twice leaves the state it left once; COMPUTE and VALIDATE issued twice leave the same registers and
make the second time the invocations of the first. -/
def Obligations.RepeatedCommandsLeaveTheSameState : Prop :=
  (∀ i s t, (∃ k b, i = .ldkey k b) ∨ (∃ k b, i = .ldepoch k b) ∨ (∃ k b, i = .ldcand k b) → exec i s = .next t →
    exec i t = .next t) ∧
  (∀ i s t, i = .compute ∨ i = .validate → exec i s = .next t →
    ∃ u, exec i t = .next u ∧ SameRegisters t u ∧ ∀ cs, t.calls = s.calls ++ cs → u.calls = t.calls ++ cs)

/-- R85: after reset and any list of loads in any order, COMPUTE and VALIDATE give a result and no fault bit exactly when
every byte of the operands they need was loaded; a byte left out raises the fault of its operand. -/
def Obligations.LoadsInAnyOrderMakeReady : Prop :=
  ∀ is : List Instr, (∀ i ∈ is, (∃ k b, i = .ldkey k b) ∨ (∃ k b, i = .ldepoch k b) ∨ (∃ k b, i = .ldcand k b)) →
    ∃ t u v, execAll is State.reset = .next t ∧ exec .compute t = .next u ∧ exec .validate t = .next v ∧
      (u.codev = 1 ∧ u.err = 0 ↔ (∀ k, ∃ b, .ldkey k b ∈ is) ∧ (∀ k, ∃ b, .ldepoch k b ∈ is)) ∧
      (v.matchv = 1 ∧ v.err = 0 ↔
        (∀ k, ∃ b, .ldkey k b ∈ is) ∧ (∀ k, ∃ b, .ldepoch k b ∈ is) ∧ (∀ k, ∃ b, .ldcand k b ∈ is)) ∧
      (∀ k, (∀ b, .ldkey k b ∉ is) → u.err.getLsbD 1 = true ∧ v.err.getLsbD 1 = true) ∧
      (∀ k, (∀ b, .ldepoch k b ∉ is) → u.err.getLsbD 2 = true ∧ v.err.getLsbD 2 = true) ∧
      (∀ k, (∀ b, .ldcand k b ∉ is) → v.err.getLsbD 3 = true)

/-! ## Whole-machine rules -/

/-- R32 (a) to (e), as an invariant: every step keeps it, from every state that meets it. -/
def Obligations.StepKeepsTheInvariants : Prop :=
  ∀ s t, UnitInv s → step s = .next t → UnitInv t

/-- The reset state meets the invariants of R32. -/
def Obligations.ResetMeetsTheInvariants : Prop :=
  UnitInv State.reset ∧ UnloadedZero State.reset

/-- R32: in every state a run from reset reaches, (a) to (e) hold, and (f) a fault bit set at some point of a run is set
at every later point until a reset. -/
def Obligations.ReachableStatesMeetR32 : Prop :=
  (∀ evs t, runEvents evs State.reset = .next t → UnitInv t) ∧
  (∀ evs evs' t u, runEvents evs State.reset = .next t → .reset ∉ evs' → runEvents (evs ++ evs') State.reset = .next u →
    ErrKept t u)

/-- R18: the storage behind an operand byte whose mask bit is 0 holds 0x00, and every step keeps it so. -/
def Obligations.StepKeepsUnloadedStorageZero : Prop :=
  ∀ s t, UnloadedZero s → step s = .next t → UnloadedZero t

/-- R18: no rule reads a byte whose mask bit is 0, so a machine that holds each operand byte as an optional byte is the
same machine: two states that agree on the optional bytes and on all else still do after a step, and the ports agree. -/
def Obligations.UnloadedBytesAreNeverRead : Prop :=
  ∀ s1 s2, SameView s1 s2 → s1.ports = s2.ports ∧
    ∀ t1, step s1 = .next t1 → ∃ t2, step s2 = .next t2 ∧ SameView t1 t2 ∧ t1.ports = t2.ports

/-- R13: no port returns anything computed from `KEY` but `CODE` through COMPUTE and `MATCH` through VALIDATE. Two states
that differ in the key bytes alone show the same ports after any event other than these two words; after COMPUTE if the
two codes agree; after VALIDATE if the two comparisons agree; and they still differ in the key bytes alone. -/
def Obligations.KeyReachesPortsOnlyThroughCodeAndMatch : Prop :=
  ∀ s1 s2 ev rest, SameButKey s1 s2 → s1.host = ev :: rest →
    (ev = .word 0x4000 → computeCode Config.hmac s1.key s1.epoch = computeCode Config.hmac s2.key s2.epoch) →
    (ev = .word 0x5000 → compareCode (computeCode Config.hmac s1.key s1.epoch) s1.cand =
      compareCode (computeCode Config.hmac s2.key s2.epoch) s2.cand) →
    ∃ t1 t2, step s1 = .next t1 ∧ step s2 = .next t2 ∧ SameButKey t1 t2 ∧ t1.ports = t2.ports

/-- R58, R43: the engine is invoked by a successful COMPUTE or VALIDATE, once, with the present key and message, the new
invocation after all earlier ones; a faulting command, any other event and reset invoke it not at all. That the record is
a field of State which reset keeps is the model's choice (log entry 3). -/
def Obligations.InvocationsAreThoseOfSuccessfulCommands : Prop :=
  ∀ s ev rest t, s.host = ev :: rest → step s = .next t →
    (ev = .word 0x4000 → KeyLoaded s → EpochLoaded s → ∃ d, OneCall s t d) ∧
    (ev = .word 0x5000 → KeyLoaded s → EpochLoaded s → CandLoaded s → ∃ d, OneCall s t d) ∧
    (¬ ((ev = .word 0x4000 ∧ KeyLoaded s ∧ EpochLoaded s) ∨
        (ev = .word 0x5000 ∧ KeyLoaded s ∧ EpochLoaded s ∧ CandLoaded s)) → t.calls = s.calls)

/-- R19: the operand registers keep their values but for the commands of R11 to R17 and reset, COMPUTE and VALIDATE change
none of them, and the result of COMPUTE or VALIDATE depends on the operands alone. -/
def Obligations.OperandsChangeOnlyByTheirCommands : Prop :=
  (∀ i s t, exec i s = .next t →
    ((∀ k b, i ≠ .ldkey k b) → i ≠ .clrkey → t.key = s.key ∧ t.kmask = s.kmask) ∧
    ((∀ k b, i ≠ .ldepoch k b) → t.epoch = s.epoch ∧ t.emask = s.emask) ∧
    ((∀ k b, i ≠ .ldcand k b) → t.cand = s.cand ∧ t.cmask = s.cmask)) ∧
  (∀ i s1 s2 t1 t2, i = .compute ∨ i = .validate → SameOperands s1 s2 → exec i s1 = .next t1 → exec i s2 = .next t2 →
    SameResults t1 t2) ∧
  (∀ s w rest e t, s.host = .word w :: rest → decode w = .error e → step s = .next t → SameOperands s t)

/-- R24: the results are invalid after LDKEY, LDEPOCH, LDCAND, CLRKEY, after a COMPUTE or VALIDATE that faults and after
reset; a word that decodes to no command leaves them as they were. -/
def Obligations.ResultsAreInvalidatedWhereR24Says : Prop :=
  (∀ i s t, exec i s = .next t → i ≠ .compute → i ≠ .validate → ResultsInvalid t) ∧
  (∀ s t, exec .compute s = .next t → ¬ (KeyLoaded s ∧ EpochLoaded s) → ResultsInvalid t) ∧
  (∀ s t, exec .validate s = .next t → ¬ (KeyLoaded s ∧ EpochLoaded s ∧ CandLoaded s) → ResultsInvalid t) ∧
  (∀ s rest t, s.host = .reset :: rest → step s = .next t → ResultsInvalid t) ∧
  (∀ s w rest e t, s.host = .word w :: rest → decode w = .error e → step s = .next t → SameResults s t)

/-- R75, R78: after any word, `ERR` has the bits it had and exactly those of the causes of R75 that apply, all in the same
step; ILLEGAL never together with another. -/
def Obligations.FaultBitsAreExactlyTheirCauses : Prop :=
  (∀ s w rest t, s.host = .word w :: rest → step s = .next t → ErrGains s t (Cause s w)) ∧
  (∀ s w n, Cause s w 0 → Cause s w n → n = 0)

/-- R79: what a faulting step does and nothing more: for an illegal word `ERR[0]` alone; for COMPUTE or VALIDATE with an
operand missing the fault bits and the invalidated results. -/
def Obligations.FaultingStepDoesNothingMore : Prop :=
  (∀ s w rest e, s.host = .word w :: rest → decode w = .error e →
    ∃ t, step s = .next t ∧ ErrGains s t (fun n => n = 0) ∧ SameOperands s t ∧ SameResults s t ∧ t.calls = s.calls) ∧
  (∀ s w rest, s.host = .word w :: rest → (w = 0x4000 ∨ w = 0x5000) → (∃ n < 4, Cause s w n) →
    ∃ t, step s = .next t ∧ ErrGains s t (Cause s w) ∧ ResultsInvalid t ∧ SameOperands s t ∧ t.calls = s.calls)

/-- R80: fault bits do not stop or change a later command: with any other value of `ERR` it does the same but for `ERR`. -/
def Obligations.FaultBitsBlockNoCommand : Prop :=
  ∀ i s t e, exec i s = .next t → ∃ u, exec i { s with err := e } = .next u ∧ SameOperands t u ∧ SameResults t u ∧
    SameOutside t u

/-- R80: a run has had no fault exactly when `ERR_O = 0` at its end: from reset, without a reset in between, no word of the
run had a cause of R75 at the moment it was executed. -/
def Obligations.NoFaultExactlyWhenErrIsZero : Prop :=
  ∀ evs t, .reset ∉ evs → runEvents evs State.reset = .next t →
    (FaultFree t ↔ ∀ pre w post u, evs = pre ++ .word w :: post → runEvents pre State.reset = .next u →
      ∀ n < 4, ¬ Cause u w n)

/-- R10, R30: what a command does to the eleven registers depends on these registers alone, not on the host's list or on
the record of invocations (both the model's own, log entries 1 and 3). -/
def Obligations.RegistersDependOnRegistersAlone : Prop :=
  ∀ i s1 s2 t1, SameRegisters s1 s2 → exec i s1 = .next t1 → ∃ t2, exec i s2 = .next t2 ∧ SameRegisters t1 t2

/-! ## Ports and host -/

/-- R26: the eight output ports. -/
def Obligations.PortsShowTheRegisters : Prop :=
  ∀ s : State, s.ports.codeO = s.code ∧ s.ports.codevO = s.codev ∧ s.ports.matchO = s.matchBit ∧
    s.ports.matchvO = s.matchv ∧ s.ports.keyvO = (if s.kmask = 0xFFFF then 1 else 0) ∧
    s.ports.epochvO = (if s.emask = 0xFF then 1 else 0) ∧ s.ports.candvO = (if s.cmask = 0xF then 1 else 0) ∧
    s.ports.errO = s.err

/-- R27: byte `i` of the wide HMAC ports lies on the bits the rule gives. That `HKEY` and `HMSG` have these values in every
state, not only inside a successful COMPUTE or VALIDATE, is the model's choice (log entry 12). -/
def Obligations.WidePortsPutByteZeroOnTop : Prop :=
  (∀ (s : State) (i : BitVec 4), s.hkeyPort.extractLsb' (120 - 8 * i.toNat) 8 = s.key[i.toNat]) ∧
  (∀ (s : State) (i : BitVec 3), s.hmsgPort.extractLsb' (56 - 8 * i.toNat) 8 = (serialize s.epoch)[i.toNat]) ∧
  (∀ (v : BitVec 160) (i : Fin 20), (digestOfPort v)[i] = v.extractLsb' (152 - 8 * i.val) 8)

/-- R86: in every state a run from reset reaches, `CODE_O` without its flag reads 0xFFFFF and `MATCH_O` without its flag
reads 0, and a host that accepts on `MATCH_O = 1` alone never accepts wrongly. -/
def Obligations.AcceptingOnMatchAloneIsSafe : Prop :=
  ∀ evs t, runEvents evs State.reset = .next t →
    (t.ports.codevO = 0 → t.ports.codeO = 0xFFFFF) ∧ (t.ports.codevO = 1 → t.ports.codeO.toNat ≤ 999999) ∧
    (t.ports.matchvO = 0 → t.ports.matchO = 0) ∧
    (t.ports.matchO = 1 → t.ports.keyvO = 1 ∧ t.ports.epochvO = 1 ∧ t.ports.candvO = 1 ∧
      t.cand.toNat = (computeCode Config.hmac t.key t.epoch).toNat)

/-- R87, R88: a partial reload over a full mask is not noticed: the result is that of the mixed operands, the new byte and
every other bit as it was, and no fault bit is set; after CLRKEY the same mistake raises NOKEY and gives no code. -/
def Obligations.PartialReloadIsNotNoticed : Prop :=
  (∀ s i b, KeyLoaded s → EpochLoaded s → ∃ t, execAll [.ldkey i b, .compute] s = .next t ∧ t.codev = 1 ∧
    t.err = s.err ∧ t.code = computeCode Config.hmac (s.key.set i.toNat b) s.epoch) ∧
  (∀ s i b, ∃ t, execAll [.clrkey, .ldkey i b, .compute] s = .next t ∧ ResultsInvalid t ∧
    t.err.getLsbD 1 = true ∧ t.calls = s.calls) ∧
  (∀ s i b, KeyLoaded s → EpochLoaded s → ∃ t, execAll [.ldepoch i b, .compute] s = .next t ∧ t.codev = 1 ∧
    t.err = s.err ∧ t.code = computeCode Config.hmac s.key t.epoch ∧
    t.epoch.extractLsb' (56 - 8 * i.toNat) 8 = b ∧
    (∀ n, ¬ (56 - 8 * i.toNat ≤ n ∧ n ≤ 63 - 8 * i.toNat) → t.epoch.getLsbD n = s.epoch.getLsbD n)) ∧
  (∀ s i b, KeyLoaded s → EpochLoaded s → CandLoaded s → ∃ t, execAll [.ldcand i b, .validate] s = .next t ∧
    t.matchv = 1 ∧ t.err = s.err ∧ (t.matchBit = 1 ↔ t.cand.toNat = (computeCode Config.hmac s.key s.epoch).toNat) ∧
    t.cand.extractLsb' (24 - 8 * i.toNat) 8 = b ∧
    (∀ n, ¬ (24 - 8 * i.toNat ≤ n ∧ n ≤ 31 - 8 * i.toNat) → t.cand.getLsbD n = s.cand.getLsbD n))

/-! ## The assembler -/

/-- R50: the three pseudo-commands expand to their loads in ascending index order, and issuing the expansion from any state
leaves the whole operand loaded, with everything else but the results as it was. -/
def Obligations.PseudoCommandsLoadWholeOperands : Prop :=
  (∀ (bytes : List Nat) (h : bytes.length = 16), (∀ b ∈ bytes, b < 256) → ∃ ws, assembleSource (.key bytes) = some ws ∧
    ws.map decode = (List.finRange 16).map
      (fun i => .ok (.ldkey (BitVec.ofNat 4 i.val) (BitVec.ofNat 8 (bytes[i.val]'(by omega))))) ∧
    ∀ s, ∃ t, runEvents (ws.map .word) s = .next t ∧ (∀ i : Fin 16, (t.key[i]).toNat = bytes[i.val]'(by omega)) ∧
      t.kmask = 0xFFFF ∧ ResultsInvalid t ∧ t.epoch = s.epoch ∧ t.emask = s.emask ∧ t.cand = s.cand ∧
      t.cmask = s.cmask ∧ t.err = s.err ∧ SameOutside s t) ∧
  (∀ v : Nat, v < 2 ^ 64 → ∃ ws, assembleSource (.epoch v) = some ws ∧
    ws.map decode = (List.finRange 8).map
      (fun i => .ok (.ldepoch (BitVec.ofNat 3 i.val) (BitVec.ofNat 8 (v / 256 ^ (7 - i.val) % 256)))) ∧
    ∀ s, ∃ t, runEvents (ws.map .word) s = .next t ∧ t.epoch.toNat = v ∧ t.emask = 0xFF ∧ ResultsInvalid t ∧
      t.key = s.key ∧ t.kmask = s.kmask ∧ t.cand = s.cand ∧ t.cmask = s.cmask ∧ t.err = s.err ∧ SameOutside s t) ∧
  (∀ v : Nat, v < 2 ^ 32 → ∃ ws, assembleSource (.cand v) = some ws ∧
    ws.map decode = (List.finRange 4).map
      (fun i => .ok (.ldcand (BitVec.ofNat 2 i.val) (BitVec.ofNat 8 (v / 256 ^ (3 - i.val) % 256)))) ∧
    ∀ s, ∃ t, runEvents (ws.map .word) s = .next t ∧ t.cand.toNat = v ∧ t.cmask = 0xF ∧ ResultsInvalid t ∧
      t.key = s.key ∧ t.kmask = s.kmask ∧ t.epoch = s.epoch ∧ t.emask = s.emask ∧ t.err = s.err ∧ SameOutside s t)

/-- R49: each of the six command forms with its operands in range assembles to the one word of that command, and with an
operand out of range is an assembly error. -/
def Obligations.CommandFormsAssembleInRangeOnly : Prop :=
  (∀ i b : Nat, if i ≤ 15 ∧ b ≤ 255
    then ∃ w, assembleSource (.ldkey i b) = some [w] ∧ decode w = .ok (.ldkey (BitVec.ofNat 4 i) (BitVec.ofNat 8 b))
    else assembleSource (.ldkey i b) = none) ∧
  (∀ i b : Nat, if i ≤ 7 ∧ b ≤ 255
    then ∃ w, assembleSource (.ldepoch i b) = some [w] ∧ decode w = .ok (.ldepoch (BitVec.ofNat 3 i) (BitVec.ofNat 8 b))
    else assembleSource (.ldepoch i b) = none) ∧
  (∀ i b : Nat, if i ≤ 3 ∧ b ≤ 255
    then ∃ w, assembleSource (.ldcand i b) = some [w] ∧ decode w = .ok (.ldcand (BitVec.ofNat 2 i) (BitVec.ofNat 8 b))
    else assembleSource (.ldcand i b) = none) ∧
  (∃ w, assembleSource .compute = some [w] ∧ decode w = .ok .compute) ∧
  (∃ w, assembleSource .validate = some [w] ∧ decode w = .ok .validate) ∧
  (∃ w, assembleSource .clrkey = some [w] ∧ decode w = .ok .clrkey)
end

