-- ==== Sys2Proof/Laws/Operands.lean ====
section
/-! SUPPORT. What the operand forms do, bit by bit and byte by byte: a byte written is the byte read, every bit outside
it stays; a mask bit set is set and every other stays. -/

namespace Sys2Proof.Machine

theorem getLsbD_byteAt {w : Nat} (v : BitVec w) (lo n : Nat) :
    (byteAt v lo).getLsbD n = (decide (n < 8) && v.getLsbD (lo + n)) := by
  simp [byteAt, BitVec.getLsbD_extractLsb']

/-- The bits of `setByteAt`: those of `b` inside the field, those of `v` outside it. -/
theorem getLsbD_setByteAt {w : Nat} (v : BitVec w) (lo n : Nat) (b : Byte) (hw : lo + 8 ≤ w) :
    (setByteAt v lo b).getLsbD n = if lo ≤ n ∧ n < lo + 8 then b.getLsbD (n - lo) else v.getLsbD n := by
  have hff : ∀ k : Nat, (0xFF#8).getLsbD k = decide (k < 8) := by
    intro k
    by_cases hk : k < 8
    · interval_cases k <;> rfl
    · simp [hk, BitVec.getLsbD_of_ge _ _ (Nat.le_of_not_lt hk)]
  by_cases hn : n < w
  · simp only [setByteAt, BitVec.getLsbD_or, BitVec.getLsbD_and, BitVec.getLsbD_not, BitVec.getLsbD_shiftLeft,
      BitVec.getLsbD_setWidth, hff, hn, decide_true, Bool.true_and]
    by_cases h1 : lo ≤ n
    · by_cases h2 : n < lo + 8
      · have : n - lo < 8 := by omega
        have h3 : n - lo < w := by omega
        have h4 : ¬ n < lo := by omega
        simp [h1, h2, this, h3, h4]
      · have h3 : ¬ n - lo < 8 := by omega
        have h4 : ¬ n < lo := by omega
        have h5 : b.getLsbD (n - lo) = false := BitVec.getLsbD_of_ge _ _ (by omega)
        simp [h2, h3, h4, h5]
    · have h4 : n < lo := by omega
      simp [h1, h4]
  · have hlo : ¬ (lo ≤ n ∧ n < lo + 8) := by omega
    rw [if_neg hlo, BitVec.getLsbD_of_ge _ _ (Nat.le_of_not_lt hn), BitVec.getLsbD_of_ge _ _ (Nat.le_of_not_lt hn)]

/-- A byte read where it was written is the byte written. -/
theorem byteAt_setByteAt_same {w : Nat} (v : BitVec w) (lo : Nat) (b : Byte) (hw : lo + 8 ≤ w) :
    byteAt (setByteAt v lo b) lo = b := by
  apply BitVec.eq_of_getLsbD_eq
  intro n hn
  rw [getLsbD_byteAt, getLsbD_setByteAt _ _ _ _ hw]
  simp [hn]

/-- A byte elsewhere is as it was. -/
theorem byteAt_setByteAt_other {w : Nat} (v : BitVec w) (lo lo' : Nat) (b : Byte) (hw : lo + 8 ≤ w)
    (h : lo' + 8 ≤ lo ∨ lo + 8 ≤ lo') : byteAt (setByteAt v lo b) lo' = byteAt v lo' := by
  apply BitVec.eq_of_getLsbD_eq
  intro n hn
  have : ¬ (lo ≤ lo' + n ∧ lo' + n < lo + 8) := by omega
  simp [getLsbD_byteAt, getLsbD_setByteAt _ _ _ _ hw, this]

/-- Writing a byte twice keeps the last one. -/
theorem setByteAt_setByteAt_same {w : Nat} (v : BitVec w) (lo : Nat) (b c : Byte) (hw : lo + 8 ≤ w) :
    setByteAt (setByteAt v lo b) lo c = setByteAt v lo c := by
  apply BitVec.eq_of_getLsbD_eq
  intro n _
  simp only [getLsbD_setByteAt _ _ _ _ hw]
  split <;> rfl

/-- The bits of a mask after one of them is set. -/
theorem getLsbD_setBit {w : Nat} (v : BitVec w) (n m : Nat) (hn : n < w) :
    (setBit v n).getLsbD m = (decide (m = n) || v.getLsbD m) := by
  rw [setBit, BitVec.getLsbD_or, BitVec.getLsbD_twoPow]
  by_cases h : m = n
  · subst h
    simp [hn]
  · have h' : ¬ n = m := fun e => h e.symm
    simp [h, h']

theorem setBit_setBit_same {w : Nat} (v : BitVec w) (n : Nat) : setBit (setBit v n) n = setBit v n := by
  simp [setBit, BitVec.or_assoc]

theorem epochLsb_add_le (i : BitVec 3) : epochLsb i + 8 ≤ 64 := by
  have := i.isLt
  unfold epochLsb
  omega

theorem candLsb_add_le (i : BitVec 2) : candLsb i + 8 ≤ 32 := by
  have := i.isLt
  unfold candLsb
  omega

/-- Two epoch bytes of different index do not overlap. -/
theorem epochLsb_apart (i j : BitVec 3) (h : i ≠ j) : epochLsb j + 8 ≤ epochLsb i ∨ epochLsb i + 8 ≤ epochLsb j := by
  have hne : i.toNat ≠ j.toNat := fun e => h (BitVec.eq_of_toNat_eq e)
  have := i.isLt
  have := j.isLt
  unfold epochLsb
  omega

/-- Two candidate bytes of different index do not overlap. -/
theorem candLsb_apart (i j : BitVec 2) (h : i ≠ j) : candLsb j + 8 ≤ candLsb i ∨ candLsb i + 8 ≤ candLsb j := by
  have hne : i.toNat ≠ j.toNat := fun e => h (BitVec.eq_of_toNat_eq e)
  have := i.isLt
  have := j.isLt
  unfold candLsb
  omega

/-- Byte `i` of the big-endian bytes of `v` (R34). -/
theorem getElem_bytesBE (n : Nat) (v : BitVec (8 * n)) (i : Nat) (hi : i < n) :
    (bytesBE n v)[i] = byteAt v (8 * (n - 1 - i)) := by
  simp [bytesBE]

/-- `be64bytes(v)[i] = v[63-8i : 56-8i]` (00_scope.md section 5). -/
theorem getElem_be64bytes (v : BitVec 64) (i : Nat) (hi : i < 8) : (be64bytes v)[i] = byteAt v (56 - 8 * i) := by
  have h : 8 * (8 - 1 - i) = 56 - 8 * i := by omega
  rw [be64bytes, getElem_bytesBE, h]

/-- A value with one more byte on its less significant side. -/
theorem toNat_append_byte {w : Nat} (v : BitVec w) (b : Byte) : (v ++ b).toNat = v.toNat * 2 ^ 8 + b.toNat := by
  rw [BitVec.toNat_append, Nat.shiftLeft_eq, Nat.mul_comm, ← Nat.two_pow_add_eq_or_of_lt b.isLt]

/-- `be32` as a number (00_scope.md section 5). -/
theorem toNat_be32 (b0 b1 b2 b3 : Byte) :
    (be32 b0 b1 b2 b3).toNat = b0.toNat * 2 ^ 24 + b1.toNat * 2 ^ 16 + b2.toNat * 2 ^ 8 + b3.toNat := by
  simp only [be32, toNat_append_byte]
  omega

end Sys2Proof.Machine
end

