-- ==== Sys2Proof/Laws/Datapath.lean ====
section
/-! SUPPORT. The datapath's arithmetic on numbers: the small facts of counter, reduction and comparison that proofs cite
instead of unfolding them. -/

namespace Sys2Proof.Machine

@[simp] theorem toNat_stepSeconds : Config.stepSeconds.toNat = 30 := rfl

@[simp] theorem toNat_modulus : Config.modulus.toNat = 1000000 := rfl

theorem toNat_counter (e : BitVec 64) : (counter e).toNat = e.toNat / 30 := by
  rw [counter, BitVec.toNat_udiv, toNat_stepSeconds]

theorem toNat_reduceToCode (t : BitVec 32) : (reduceToCode t).toNat = t.toNat % 1000000 := by
  rw [reduceToCode, BitVec.toNat_setWidth, BitVec.toNat_umod, toNat_modulus]
  omega

/-- No code is above 999,999, so none is NOCODE (R20, R62). -/
theorem toNat_computeCode_lt (hmac : HmacFn) (k : Vector Byte 16) (e : BitVec 64) :
    (computeCode hmac k e).toNat < 1000000 := by
  rw [computeCode, extract, toNat_reduceToCode]
  omega

theorem computeCode_ne_noCode (hmac : HmacFn) (k : Vector Byte 16) (e : BitVec 64) :
    computeCode hmac k e ≠ 0xFFFFF := by
  intro h
  have := toNat_computeCode_lt hmac k e
  rw [h] at this
  exact absurd this (by decide)

/-- The comparison answers 1 exactly on equality of the zero-extended code and the candidate (R67). -/
theorem compareCode_eq_one (c : BitVec 20) (cand : BitVec 32) : compareCode c cand = 1 ↔ c.setWidth 32 = cand := by
  unfold compareCode
  split <;> simp_all

end Sys2Proof.Machine
end

