-- ==== Sys2Proof/Laws/Decode.lean ====
section
/-! SUPPORT. The decoder said once: the rows of 30_encoding.md R46 as one chain of cases, which proofs cite in place of the
table. -/

namespace Sys2Proof

/-- Decoding, row by row (R46). -/
theorem decode_eq (w : CmdWord) : decode w =
    if w &&& 0xF000 = 0x1000 then .ok (.ldkey (w.extractLsb' 8 4) (w.extractLsb' 0 8))
    else if w &&& 0xF800 = 0x2000 then .ok (.ldepoch (w.extractLsb' 8 3) (w.extractLsb' 0 8))
    else if w &&& 0xFC00 = 0x3000 then .ok (.ldcand (w.extractLsb' 8 2) (w.extractLsb' 0 8))
    else if w = 0x4000 then .ok .compute
    else if w = 0x5000 then .ok .validate
    else if w = 0x6000 then .ok .clrkey
    else .error (illegalClass w) := by
  have full : w &&& 0xFFFF = w := BitVec.and_allOnes
  simp only [decode, decodeRows, opcodeRows, OpcodeRow.accepts, beq_iff_eq, full]

/-- The only word of COMPUTE (R66). -/
theorem decode_eq_compute (w : CmdWord) : decode w = .ok .compute ↔ w = 0x4000 := by
  refine ⟨fun h => ?_, fun h => by subst h; rfl⟩
  rw [decode_eq] at h
  split_ifs at h <;> simp_all

/-- The only word of VALIDATE (R68). -/
theorem decode_eq_validate (w : CmdWord) : decode w = .ok .validate ↔ w = 0x5000 := by
  refine ⟨fun h => ?_, fun h => by subst h; rfl⟩
  rw [decode_eq] at h
  split_ifs at h <;> simp_all

/-- The only word of CLRKEY (R72). -/
theorem decode_eq_clrkey (w : CmdWord) : decode w = .ok .clrkey ↔ w = 0x6000 := by
  refine ⟨fun h => ?_, fun h => by subst h; rfl⟩
  rw [decode_eq] at h
  split_ifs at h <;> simp_all

end Sys2Proof
end

