-- ==== Sys2Proof/Laws/State.lean ====
section
/-! SUPPORT. The fields of State after each named operation: one lemma per field per operation, so that no proof unfolds
a record update. -/

namespace Sys2Proof.Machine

/-! `State.invalidateResults` -/

@[simp] theorem State.invalidateResults_key (s : State) : s.invalidateResults.key = s.key := rfl
@[simp] theorem State.invalidateResults_kmask (s : State) : s.invalidateResults.kmask = s.kmask := rfl
@[simp] theorem State.invalidateResults_epoch (s : State) : s.invalidateResults.epoch = s.epoch := rfl
@[simp] theorem State.invalidateResults_emask (s : State) : s.invalidateResults.emask = s.emask := rfl
@[simp] theorem State.invalidateResults_cand (s : State) : s.invalidateResults.cand = s.cand := rfl
@[simp] theorem State.invalidateResults_cmask (s : State) : s.invalidateResults.cmask = s.cmask := rfl
@[simp] theorem State.invalidateResults_code (s : State) : s.invalidateResults.code = Config.noCode := rfl
@[simp] theorem State.invalidateResults_codev (s : State) : s.invalidateResults.codev = 0 := rfl
@[simp] theorem State.invalidateResults_matchBit (s : State) : s.invalidateResults.matchBit = 0 := rfl
@[simp] theorem State.invalidateResults_matchv (s : State) : s.invalidateResults.matchv = 0 := rfl
@[simp] theorem State.invalidateResults_err (s : State) : s.invalidateResults.err = s.err := rfl
@[simp] theorem State.invalidateResults_host (s : State) : s.invalidateResults.host = s.host := rfl
@[simp] theorem State.invalidateResults_calls (s : State) : s.invalidateResults.calls = s.calls := rfl

/-! `State.raiseFault` -/

@[simp] theorem State.raiseFault_key (s : State) (bits : BitVec 4) : (s.raiseFault bits).key = s.key := rfl
@[simp] theorem State.raiseFault_kmask (s : State) (bits : BitVec 4) : (s.raiseFault bits).kmask = s.kmask := rfl
@[simp] theorem State.raiseFault_epoch (s : State) (bits : BitVec 4) : (s.raiseFault bits).epoch = s.epoch := rfl
@[simp] theorem State.raiseFault_emask (s : State) (bits : BitVec 4) : (s.raiseFault bits).emask = s.emask := rfl
@[simp] theorem State.raiseFault_cand (s : State) (bits : BitVec 4) : (s.raiseFault bits).cand = s.cand := rfl
@[simp] theorem State.raiseFault_cmask (s : State) (bits : BitVec 4) : (s.raiseFault bits).cmask = s.cmask := rfl
@[simp] theorem State.raiseFault_code (s : State) (bits : BitVec 4) : (s.raiseFault bits).code = s.code := rfl
@[simp] theorem State.raiseFault_codev (s : State) (bits : BitVec 4) : (s.raiseFault bits).codev = s.codev := rfl
@[simp] theorem State.raiseFault_matchBit (s : State) (bits : BitVec 4) : (s.raiseFault bits).matchBit = s.matchBit := rfl
@[simp] theorem State.raiseFault_matchv (s : State) (bits : BitVec 4) : (s.raiseFault bits).matchv = s.matchv := rfl
@[simp] theorem State.raiseFault_err (s : State) (bits : BitVec 4) : (s.raiseFault bits).err = s.err ||| bits := rfl
@[simp] theorem State.raiseFault_host (s : State) (bits : BitVec 4) : (s.raiseFault bits).host = s.host := rfl
@[simp] theorem State.raiseFault_calls (s : State) (bits : BitVec 4) : (s.raiseFault bits).calls = s.calls := rfl

/-! `State.faultCommand` -/

@[simp] theorem State.faultCommand_key (s : State) (bits : BitVec 4) : (s.faultCommand bits).key = s.key := rfl
@[simp] theorem State.faultCommand_kmask (s : State) (bits : BitVec 4) : (s.faultCommand bits).kmask = s.kmask := rfl
@[simp] theorem State.faultCommand_epoch (s : State) (bits : BitVec 4) : (s.faultCommand bits).epoch = s.epoch := rfl
@[simp] theorem State.faultCommand_emask (s : State) (bits : BitVec 4) : (s.faultCommand bits).emask = s.emask := rfl
@[simp] theorem State.faultCommand_cand (s : State) (bits : BitVec 4) : (s.faultCommand bits).cand = s.cand := rfl
@[simp] theorem State.faultCommand_cmask (s : State) (bits : BitVec 4) : (s.faultCommand bits).cmask = s.cmask := rfl
@[simp] theorem State.faultCommand_code (s : State) (bits : BitVec 4) : (s.faultCommand bits).code = Config.noCode := rfl
@[simp] theorem State.faultCommand_codev (s : State) (bits : BitVec 4) : (s.faultCommand bits).codev = 0 := rfl
@[simp] theorem State.faultCommand_matchBit (s : State) (bits : BitVec 4) : (s.faultCommand bits).matchBit = 0 := rfl
@[simp] theorem State.faultCommand_matchv (s : State) (bits : BitVec 4) : (s.faultCommand bits).matchv = 0 := rfl
@[simp] theorem State.faultCommand_err (s : State) (bits : BitVec 4) : (s.faultCommand bits).err = s.err ||| bits := rfl
@[simp] theorem State.faultCommand_host (s : State) (bits : BitVec 4) : (s.faultCommand bits).host = s.host := rfl
@[simp] theorem State.faultCommand_calls (s : State) (bits : BitVec 4) : (s.faultCommand bits).calls = s.calls := rfl

/-! `State.loadKeyByte` -/

@[simp] theorem State.loadKeyByte_key (s : State) (i : BitVec 4) (b : Byte) : (s.loadKeyByte i b).key = s.key.set i.toNat b := rfl
@[simp] theorem State.loadKeyByte_kmask (s : State) (i : BitVec 4) (b : Byte) : (s.loadKeyByte i b).kmask = setBit s.kmask i.toNat := rfl
@[simp] theorem State.loadKeyByte_epoch (s : State) (i : BitVec 4) (b : Byte) : (s.loadKeyByte i b).epoch = s.epoch := rfl
@[simp] theorem State.loadKeyByte_emask (s : State) (i : BitVec 4) (b : Byte) : (s.loadKeyByte i b).emask = s.emask := rfl
@[simp] theorem State.loadKeyByte_cand (s : State) (i : BitVec 4) (b : Byte) : (s.loadKeyByte i b).cand = s.cand := rfl
@[simp] theorem State.loadKeyByte_cmask (s : State) (i : BitVec 4) (b : Byte) : (s.loadKeyByte i b).cmask = s.cmask := rfl
@[simp] theorem State.loadKeyByte_code (s : State) (i : BitVec 4) (b : Byte) : (s.loadKeyByte i b).code = s.code := rfl
@[simp] theorem State.loadKeyByte_codev (s : State) (i : BitVec 4) (b : Byte) : (s.loadKeyByte i b).codev = s.codev := rfl
@[simp] theorem State.loadKeyByte_matchBit (s : State) (i : BitVec 4) (b : Byte) : (s.loadKeyByte i b).matchBit = s.matchBit := rfl
@[simp] theorem State.loadKeyByte_matchv (s : State) (i : BitVec 4) (b : Byte) : (s.loadKeyByte i b).matchv = s.matchv := rfl
@[simp] theorem State.loadKeyByte_err (s : State) (i : BitVec 4) (b : Byte) : (s.loadKeyByte i b).err = s.err := rfl
@[simp] theorem State.loadKeyByte_host (s : State) (i : BitVec 4) (b : Byte) : (s.loadKeyByte i b).host = s.host := rfl
@[simp] theorem State.loadKeyByte_calls (s : State) (i : BitVec 4) (b : Byte) : (s.loadKeyByte i b).calls = s.calls := rfl

/-! `State.loadEpochByte` -/

@[simp] theorem State.loadEpochByte_key (s : State) (i : BitVec 3) (b : Byte) : (s.loadEpochByte i b).key = s.key := rfl
@[simp] theorem State.loadEpochByte_kmask (s : State) (i : BitVec 3) (b : Byte) : (s.loadEpochByte i b).kmask = s.kmask := rfl
@[simp] theorem State.loadEpochByte_epoch (s : State) (i : BitVec 3) (b : Byte) : (s.loadEpochByte i b).epoch = setByteAt s.epoch (epochLsb i) b := rfl
@[simp] theorem State.loadEpochByte_emask (s : State) (i : BitVec 3) (b : Byte) : (s.loadEpochByte i b).emask = setBit s.emask i.toNat := rfl
@[simp] theorem State.loadEpochByte_cand (s : State) (i : BitVec 3) (b : Byte) : (s.loadEpochByte i b).cand = s.cand := rfl
@[simp] theorem State.loadEpochByte_cmask (s : State) (i : BitVec 3) (b : Byte) : (s.loadEpochByte i b).cmask = s.cmask := rfl
@[simp] theorem State.loadEpochByte_code (s : State) (i : BitVec 3) (b : Byte) : (s.loadEpochByte i b).code = s.code := rfl
@[simp] theorem State.loadEpochByte_codev (s : State) (i : BitVec 3) (b : Byte) : (s.loadEpochByte i b).codev = s.codev := rfl
@[simp] theorem State.loadEpochByte_matchBit (s : State) (i : BitVec 3) (b : Byte) : (s.loadEpochByte i b).matchBit = s.matchBit := rfl
@[simp] theorem State.loadEpochByte_matchv (s : State) (i : BitVec 3) (b : Byte) : (s.loadEpochByte i b).matchv = s.matchv := rfl
@[simp] theorem State.loadEpochByte_err (s : State) (i : BitVec 3) (b : Byte) : (s.loadEpochByte i b).err = s.err := rfl
@[simp] theorem State.loadEpochByte_host (s : State) (i : BitVec 3) (b : Byte) : (s.loadEpochByte i b).host = s.host := rfl
@[simp] theorem State.loadEpochByte_calls (s : State) (i : BitVec 3) (b : Byte) : (s.loadEpochByte i b).calls = s.calls := rfl

/-! `State.loadCandByte` -/

@[simp] theorem State.loadCandByte_key (s : State) (i : BitVec 2) (b : Byte) : (s.loadCandByte i b).key = s.key := rfl
@[simp] theorem State.loadCandByte_kmask (s : State) (i : BitVec 2) (b : Byte) : (s.loadCandByte i b).kmask = s.kmask := rfl
@[simp] theorem State.loadCandByte_epoch (s : State) (i : BitVec 2) (b : Byte) : (s.loadCandByte i b).epoch = s.epoch := rfl
@[simp] theorem State.loadCandByte_emask (s : State) (i : BitVec 2) (b : Byte) : (s.loadCandByte i b).emask = s.emask := rfl
@[simp] theorem State.loadCandByte_cand (s : State) (i : BitVec 2) (b : Byte) : (s.loadCandByte i b).cand = setByteAt s.cand (candLsb i) b := rfl
@[simp] theorem State.loadCandByte_cmask (s : State) (i : BitVec 2) (b : Byte) : (s.loadCandByte i b).cmask = setBit s.cmask i.toNat := rfl
@[simp] theorem State.loadCandByte_code (s : State) (i : BitVec 2) (b : Byte) : (s.loadCandByte i b).code = s.code := rfl
@[simp] theorem State.loadCandByte_codev (s : State) (i : BitVec 2) (b : Byte) : (s.loadCandByte i b).codev = s.codev := rfl
@[simp] theorem State.loadCandByte_matchBit (s : State) (i : BitVec 2) (b : Byte) : (s.loadCandByte i b).matchBit = s.matchBit := rfl
@[simp] theorem State.loadCandByte_matchv (s : State) (i : BitVec 2) (b : Byte) : (s.loadCandByte i b).matchv = s.matchv := rfl
@[simp] theorem State.loadCandByte_err (s : State) (i : BitVec 2) (b : Byte) : (s.loadCandByte i b).err = s.err := rfl
@[simp] theorem State.loadCandByte_host (s : State) (i : BitVec 2) (b : Byte) : (s.loadCandByte i b).host = s.host := rfl
@[simp] theorem State.loadCandByte_calls (s : State) (i : BitVec 2) (b : Byte) : (s.loadCandByte i b).calls = s.calls := rfl

/-! `State.clearKey` -/

@[simp] theorem State.clearKey_key (s : State) : s.clearKey.key = Vector.replicate 16 0x00 := rfl
@[simp] theorem State.clearKey_kmask (s : State) : s.clearKey.kmask = 0x0000 := rfl
@[simp] theorem State.clearKey_epoch (s : State) : s.clearKey.epoch = s.epoch := rfl
@[simp] theorem State.clearKey_emask (s : State) : s.clearKey.emask = s.emask := rfl
@[simp] theorem State.clearKey_cand (s : State) : s.clearKey.cand = s.cand := rfl
@[simp] theorem State.clearKey_cmask (s : State) : s.clearKey.cmask = s.cmask := rfl
@[simp] theorem State.clearKey_code (s : State) : s.clearKey.code = s.code := rfl
@[simp] theorem State.clearKey_codev (s : State) : s.clearKey.codev = s.codev := rfl
@[simp] theorem State.clearKey_matchBit (s : State) : s.clearKey.matchBit = s.matchBit := rfl
@[simp] theorem State.clearKey_matchv (s : State) : s.clearKey.matchv = s.matchv := rfl
@[simp] theorem State.clearKey_err (s : State) : s.clearKey.err = s.err := rfl
@[simp] theorem State.clearKey_host (s : State) : s.clearKey.host = s.host := rfl
@[simp] theorem State.clearKey_calls (s : State) : s.clearKey.calls = s.calls := rfl

/-! `State.putCode` -/

@[simp] theorem State.putCode_key (s : State) (c : BitVec 20) : (s.putCode c).key = s.key := rfl
@[simp] theorem State.putCode_kmask (s : State) (c : BitVec 20) : (s.putCode c).kmask = s.kmask := rfl
@[simp] theorem State.putCode_epoch (s : State) (c : BitVec 20) : (s.putCode c).epoch = s.epoch := rfl
@[simp] theorem State.putCode_emask (s : State) (c : BitVec 20) : (s.putCode c).emask = s.emask := rfl
@[simp] theorem State.putCode_cand (s : State) (c : BitVec 20) : (s.putCode c).cand = s.cand := rfl
@[simp] theorem State.putCode_cmask (s : State) (c : BitVec 20) : (s.putCode c).cmask = s.cmask := rfl
@[simp] theorem State.putCode_code (s : State) (c : BitVec 20) : (s.putCode c).code = c := rfl
@[simp] theorem State.putCode_codev (s : State) (c : BitVec 20) : (s.putCode c).codev = 1 := rfl
@[simp] theorem State.putCode_matchBit (s : State) (c : BitVec 20) : (s.putCode c).matchBit = 0 := rfl
@[simp] theorem State.putCode_matchv (s : State) (c : BitVec 20) : (s.putCode c).matchv = 0 := rfl
@[simp] theorem State.putCode_err (s : State) (c : BitVec 20) : (s.putCode c).err = s.err := rfl
@[simp] theorem State.putCode_host (s : State) (c : BitVec 20) : (s.putCode c).host = s.host := rfl
@[simp] theorem State.putCode_calls (s : State) (c : BitVec 20) : (s.putCode c).calls = s.calls := rfl

/-! `State.putMatch` -/

@[simp] theorem State.putMatch_key (s : State) (m : Bit) : (s.putMatch m).key = s.key := rfl
@[simp] theorem State.putMatch_kmask (s : State) (m : Bit) : (s.putMatch m).kmask = s.kmask := rfl
@[simp] theorem State.putMatch_epoch (s : State) (m : Bit) : (s.putMatch m).epoch = s.epoch := rfl
@[simp] theorem State.putMatch_emask (s : State) (m : Bit) : (s.putMatch m).emask = s.emask := rfl
@[simp] theorem State.putMatch_cand (s : State) (m : Bit) : (s.putMatch m).cand = s.cand := rfl
@[simp] theorem State.putMatch_cmask (s : State) (m : Bit) : (s.putMatch m).cmask = s.cmask := rfl
@[simp] theorem State.putMatch_code (s : State) (m : Bit) : (s.putMatch m).code = Config.noCode := rfl
@[simp] theorem State.putMatch_codev (s : State) (m : Bit) : (s.putMatch m).codev = 0 := rfl
@[simp] theorem State.putMatch_matchBit (s : State) (m : Bit) : (s.putMatch m).matchBit = m := rfl
@[simp] theorem State.putMatch_matchv (s : State) (m : Bit) : (s.putMatch m).matchv = 1 := rfl
@[simp] theorem State.putMatch_err (s : State) (m : Bit) : (s.putMatch m).err = s.err := rfl
@[simp] theorem State.putMatch_host (s : State) (m : Bit) : (s.putMatch m).host = s.host := rfl
@[simp] theorem State.putMatch_calls (s : State) (m : Bit) : (s.putMatch m).calls = s.calls := rfl

/-! `State.recordCall` -/

@[simp] theorem State.recordCall_key (s : State) (c : HmacCall) : (s.recordCall c).key = s.key := rfl
@[simp] theorem State.recordCall_kmask (s : State) (c : HmacCall) : (s.recordCall c).kmask = s.kmask := rfl
@[simp] theorem State.recordCall_epoch (s : State) (c : HmacCall) : (s.recordCall c).epoch = s.epoch := rfl
@[simp] theorem State.recordCall_emask (s : State) (c : HmacCall) : (s.recordCall c).emask = s.emask := rfl
@[simp] theorem State.recordCall_cand (s : State) (c : HmacCall) : (s.recordCall c).cand = s.cand := rfl
@[simp] theorem State.recordCall_cmask (s : State) (c : HmacCall) : (s.recordCall c).cmask = s.cmask := rfl
@[simp] theorem State.recordCall_code (s : State) (c : HmacCall) : (s.recordCall c).code = s.code := rfl
@[simp] theorem State.recordCall_codev (s : State) (c : HmacCall) : (s.recordCall c).codev = s.codev := rfl
@[simp] theorem State.recordCall_matchBit (s : State) (c : HmacCall) : (s.recordCall c).matchBit = s.matchBit := rfl
@[simp] theorem State.recordCall_matchv (s : State) (c : HmacCall) : (s.recordCall c).matchv = s.matchv := rfl
@[simp] theorem State.recordCall_err (s : State) (c : HmacCall) : (s.recordCall c).err = s.err := rfl
@[simp] theorem State.recordCall_host (s : State) (c : HmacCall) : (s.recordCall c).host = s.host := rfl
@[simp] theorem State.recordCall_calls (s : State) (c : HmacCall) : (s.recordCall c).calls = s.calls ++ [c] := rfl

/-! `State.illegalWord` -/

@[simp] theorem State.illegalWord_key (s : State) : s.illegalWord.key = s.key := rfl
@[simp] theorem State.illegalWord_kmask (s : State) : s.illegalWord.kmask = s.kmask := rfl
@[simp] theorem State.illegalWord_epoch (s : State) : s.illegalWord.epoch = s.epoch := rfl
@[simp] theorem State.illegalWord_emask (s : State) : s.illegalWord.emask = s.emask := rfl
@[simp] theorem State.illegalWord_cand (s : State) : s.illegalWord.cand = s.cand := rfl
@[simp] theorem State.illegalWord_cmask (s : State) : s.illegalWord.cmask = s.cmask := rfl
@[simp] theorem State.illegalWord_code (s : State) : s.illegalWord.code = s.code := rfl
@[simp] theorem State.illegalWord_codev (s : State) : s.illegalWord.codev = s.codev := rfl
@[simp] theorem State.illegalWord_matchBit (s : State) : s.illegalWord.matchBit = s.matchBit := rfl
@[simp] theorem State.illegalWord_matchv (s : State) : s.illegalWord.matchv = s.matchv := rfl
@[simp] theorem State.illegalWord_err (s : State) : s.illegalWord.err = s.err ||| illegalBit := rfl
@[simp] theorem State.illegalWord_host (s : State) : s.illegalWord.host = s.host := rfl
@[simp] theorem State.illegalWord_calls (s : State) : s.illegalWord.calls = s.calls := rfl

/-! `State.assertReset` -/

@[simp] theorem State.assertReset_key (s : State) : s.assertReset.key = Vector.replicate 16 0x00 := rfl
@[simp] theorem State.assertReset_kmask (s : State) : s.assertReset.kmask = 0x0000 := rfl
@[simp] theorem State.assertReset_epoch (s : State) : s.assertReset.epoch = 0 := rfl
@[simp] theorem State.assertReset_emask (s : State) : s.assertReset.emask = 0x00 := rfl
@[simp] theorem State.assertReset_cand (s : State) : s.assertReset.cand = 0 := rfl
@[simp] theorem State.assertReset_cmask (s : State) : s.assertReset.cmask = 0x0 := rfl
@[simp] theorem State.assertReset_code (s : State) : s.assertReset.code = 0xFFFFF := rfl
@[simp] theorem State.assertReset_codev (s : State) : s.assertReset.codev = 0 := rfl
@[simp] theorem State.assertReset_matchBit (s : State) : s.assertReset.matchBit = 0 := rfl
@[simp] theorem State.assertReset_matchv (s : State) : s.assertReset.matchv = 0 := rfl
@[simp] theorem State.assertReset_err (s : State) : s.assertReset.err = 0x0 := rfl
@[simp] theorem State.assertReset_host (s : State) : s.assertReset.host = s.host := rfl
@[simp] theorem State.assertReset_calls (s : State) : s.assertReset.calls = s.calls := rfl

/-! `State.issueNext` -/

@[simp] theorem State.issueNext_key (s : State) (ev : HostEvent) : (s.issueNext ev).key = s.key := rfl
@[simp] theorem State.issueNext_kmask (s : State) (ev : HostEvent) : (s.issueNext ev).kmask = s.kmask := rfl
@[simp] theorem State.issueNext_epoch (s : State) (ev : HostEvent) : (s.issueNext ev).epoch = s.epoch := rfl
@[simp] theorem State.issueNext_emask (s : State) (ev : HostEvent) : (s.issueNext ev).emask = s.emask := rfl
@[simp] theorem State.issueNext_cand (s : State) (ev : HostEvent) : (s.issueNext ev).cand = s.cand := rfl
@[simp] theorem State.issueNext_cmask (s : State) (ev : HostEvent) : (s.issueNext ev).cmask = s.cmask := rfl
@[simp] theorem State.issueNext_code (s : State) (ev : HostEvent) : (s.issueNext ev).code = s.code := rfl
@[simp] theorem State.issueNext_codev (s : State) (ev : HostEvent) : (s.issueNext ev).codev = s.codev := rfl
@[simp] theorem State.issueNext_matchBit (s : State) (ev : HostEvent) : (s.issueNext ev).matchBit = s.matchBit := rfl
@[simp] theorem State.issueNext_matchv (s : State) (ev : HostEvent) : (s.issueNext ev).matchv = s.matchv := rfl
@[simp] theorem State.issueNext_err (s : State) (ev : HostEvent) : (s.issueNext ev).err = s.err := rfl
@[simp] theorem State.issueNext_host (s : State) (ev : HostEvent) : (s.issueNext ev).host = ev :: s.host := rfl
@[simp] theorem State.issueNext_calls (s : State) (ev : HostEvent) : (s.issueNext ev).calls = s.calls := rfl

end Sys2Proof.Machine
end

