-- ==== Sys2Proof/Laws/Ops.lean ====
section
/-! SUPPORT. One lemma per shared operation that says once everything it can do: the fault bits, the derivation, COMPUTE
and VALIDATE over any engine, the option view of the operand bytes. -/

namespace Sys2Proof.Machine

/-- A mask is full exactly when each of its bits is 1. -/
theorem mask_full_iff {w : Nat} (m : BitVec w) : m = BitVec.allOnes w ↔ ∀ n < w, m.getLsbD n = true := by
  constructor
  · rintro rfl n hn
    simp [hn]
  · intro h
    apply BitVec.eq_of_getLsbD_eq
    intro n hn
    simp [h n hn, hn]

theorem State.keyValid_iff (s : State) : s.keyValid = true ↔ ∀ i : BitVec 4, s.kmask.getLsbD i.toNat = true := by
  have h : s.keyValid = true ↔ s.kmask = BitVec.allOnes 16 := by simp [State.keyValid]
  rw [h, mask_full_iff]
  exact ⟨fun h i => h _ i.isLt, fun h n hn => by simpa [Nat.mod_eq_of_lt hn] using h (BitVec.ofNat 4 n)⟩

theorem State.epochValid_iff (s : State) : s.epochValid = true ↔ ∀ i : BitVec 3, s.emask.getLsbD i.toNat = true := by
  have h : s.epochValid = true ↔ s.emask = BitVec.allOnes 8 := by simp [State.epochValid]
  rw [h, mask_full_iff]
  exact ⟨fun h i => h _ i.isLt, fun h n hn => by simpa [Nat.mod_eq_of_lt hn] using h (BitVec.ofNat 3 n)⟩

theorem State.candValid_iff (s : State) : s.candValid = true ↔ ∀ i : BitVec 2, s.cmask.getLsbD i.toNat = true := by
  have h : s.candValid = true ↔ s.cmask = BitVec.allOnes 4 := by simp [State.candValid]
  rw [h, mask_full_iff]
  exact ⟨fun h i => h _ i.isLt, fun h n hn => by simpa [Nat.mod_eq_of_lt hn] using h (BitVec.ofNat 2 n)⟩

/-- COMPUTE has no fault exactly when the key and the epoch time are loaded (R66). -/
theorem State.computeFaults_eq_zero (s : State) :
    s.computeFaults = 0 ↔ s.keyValid = true ∧ s.epochValid = true := by
  unfold State.computeFaults noKeyBit noEpochBit
  cases s.keyValid <;> cases s.epochValid <;> decide

/-- VALIDATE has no fault exactly when all three operands are loaded (R68). -/
theorem State.validateFaults_eq_zero (s : State) :
    s.validateFaults = 0 ↔ s.keyValid = true ∧ s.epochValid = true ∧ s.candValid = true := by
  unfold State.validateFaults State.computeFaults noKeyBit noEpochBit noCandBit
  cases s.keyValid <;> cases s.epochValid <;> cases s.candValid <;> decide

/-- The derivation (R63): the code, and one invocation recorded. -/
@[simp] theorem State.deriveCode_eq (hmac : HmacFn) (s : State) :
    s.deriveCode hmac = (computeCode hmac s.key s.epoch, s.recordCall { key := s.key, msg := serialize s.epoch }) := rfl

/-- Everything COMPUTE can do (R66). -/
theorem State.computeWith_cases (hmac : HmacFn) (s : State) :
    (s.keyValid = true ∧ s.epochValid = true ∧
      s.computeWith hmac = (s.recordCall { key := s.key, msg := serialize s.epoch }).putCode
        (computeCode hmac s.key s.epoch)) ∨
    ((s.keyValid = false ∨ s.epochValid = false) ∧ s.computeWith hmac = s.faultCommand s.computeFaults) := by
  by_cases h : s.computeFaults = 0
  · obtain ⟨h1, h2⟩ := s.computeFaults_eq_zero.mp h
    exact .inl ⟨h1, h2, if_pos h⟩
  · refine .inr ⟨?_, if_neg h⟩
    rw [State.computeFaults_eq_zero, not_and_or] at h
    simpa using h

/-- Everything VALIDATE can do (R68). -/
theorem State.validateWith_cases (hmac : HmacFn) (s : State) :
    (s.keyValid = true ∧ s.epochValid = true ∧ s.candValid = true ∧
      s.validateWith hmac = (s.recordCall { key := s.key, msg := serialize s.epoch }).putMatch
        (compareCode (computeCode hmac s.key s.epoch) s.cand)) ∨
    ((s.keyValid = false ∨ s.epochValid = false ∨ s.candValid = false) ∧
      s.validateWith hmac = s.faultCommand s.validateFaults) := by
  by_cases h : s.validateFaults = 0
  · obtain ⟨h1, h2, h3⟩ := s.validateFaults_eq_zero.mp h
    exact .inl ⟨h1, h2, h3, if_pos h⟩
  · refine .inr ⟨?_, if_neg h⟩
    rw [State.validateFaults_eq_zero, not_and_or, not_and_or] at h
    simpa using h

/-- The host's next event, when there is one. -/
theorem State.takeEvent_cons (s : State) (ev : HostEvent) (rest : List HostEvent) (h : s.host = ev :: rest) :
    s.takeEvent = some (ev, { s with host := rest }) := by
  simp [State.takeEvent, h]

theorem State.takeEvent_nil (s : State) (h : s.host = []) : s.takeEvent = none := by
  simp [State.takeEvent, h]

end Sys2Proof.Machine
end

