-- ==== Sys2Proof/Laws/PerInstr.lean ====
section
/-! SUPPORT. The family EncodeFields: the word of a command has the fields of its row in 30_encoding.md R46, and they are
well formed. -/

namespace Sys2Proof.Laws.EncodeFields

/-- The columns `op`, `idx`, `imm8` of R46's table for a command. -/
def fields : Instr → CmdFields
  | .ldkey i b => { op := 0x1, idx := i, imm8 := b }
  | .ldepoch i b => { op := 0x2, idx := i.setWidth 4, imm8 := b }
  | .ldcand i b => { op := 0x3, idx := i.setWidth 4, imm8 := b }
  | .compute => { op := 0x4, idx := 0, imm8 := 0 }
  | .validate => { op := 0x5, idx := 0, imm8 := 0 }
  | .clrkey => { op := 0x6, idx := 0, imm8 := 0 }

/-- The word of a command has the command's fields, which spell a command. -/
def Statement (i : Instr) : Prop := CmdFields.ofWord (encode i) = fields i ∧ (fields i).wellFormed = true

theorem ldkey (i : BitVec 4) (b : Byte) : Statement (.ldkey i b) := by
  refine ⟨?_, by simp [fields, CmdFields.wellFormed]⟩
  revert i b
  decide +kernel

theorem ldepoch (i : BitVec 3) (b : Byte) : Statement (.ldepoch i b) := by
  refine ⟨?_, by revert i; simp [fields, CmdFields.wellFormed]; decide⟩
  revert i b
  decide +kernel

theorem ldcand (i : BitVec 2) (b : Byte) : Statement (.ldcand i b) := by
  refine ⟨?_, by revert i; simp [fields, CmdFields.wellFormed]; decide⟩
  revert i b
  decide +kernel

theorem compute : Statement .compute := ⟨by decide, by decide⟩

theorem validate : Statement .validate := ⟨by decide, by decide⟩

theorem clrkey : Statement .clrkey := ⟨by decide, by decide⟩

end Sys2Proof.Laws.EncodeFields
end

