-- ==== Sys2Proof/Laws/Step.lean ====
section
/-! SUPPORT. What `exec` and `step` can do, said once: one equation per command, one per event, and the inversion of a
step. -/

namespace Sys2Proof.Machine

@[simp] theorem exec_ldkey (i : BitVec 4) (b : Byte) (s : State) :
    exec (.ldkey i b) s = .next (s.loadKeyByte i b).invalidateResults := rfl

@[simp] theorem exec_ldepoch (i : BitVec 3) (b : Byte) (s : State) :
    exec (.ldepoch i b) s = .next (s.loadEpochByte i b).invalidateResults := rfl

@[simp] theorem exec_ldcand (i : BitVec 2) (b : Byte) (s : State) :
    exec (.ldcand i b) s = .next (s.loadCandByte i b).invalidateResults := rfl

@[simp] theorem exec_compute (s : State) : exec .compute s = .next (s.computeWith Config.hmac) := rfl

@[simp] theorem exec_validate (s : State) : exec .validate s = .next (s.validateWith Config.hmac) := rfl

@[simp] theorem exec_clrkey (s : State) : exec .clrkey s = .next s.clearKey.invalidateResults := rfl

/-- The reset step (R84). -/
theorem step_reset (s : State) (rest : List HostEvent) (h : s.host = .reset :: rest) :
    step s = .next ({ s with host := rest } : State).assertReset := by
  simp only [step, s.takeEvent_cons _ _ h]

/-- A word that decodes to a command (R40, R46). -/
theorem step_command (s : State) (w : CmdWord) (rest : List HostEvent) (i : Instr) (h : s.host = .word w :: rest)
    (hi : decode w = .ok i) : step s = exec i { s with host := rest } := by
  simp only [step, s.takeEvent_cons _ _ h, hi]

/-- A word that decodes to no command (R47, R79). -/
theorem step_illegal (s : State) (w : CmdWord) (rest : List HostEvent) (e : IllegalWord) (h : s.host = .word w :: rest)
    (he : decode w = .error e) : step s = .next ({ s with host := rest } : State).illegalWord := by
  simp only [step, s.takeEvent_cons _ _ h, he]

/-- The end of a run (R9). -/
theorem step_end (s : State) (h : s.host = []) : step s = .fault .endOfRun := by
  simp only [step, s.takeEvent_nil h]

/-- Every way a step can answer a next state. -/
theorem step_cases (s t : State) (h : step s = .next t) :
    (∃ rest, s.host = .reset :: rest ∧ t = ({ s with host := rest } : State).assertReset) ∨
    (∃ w rest i, s.host = .word w :: rest ∧ decode w = .ok i ∧ exec i { s with host := rest } = .next t) ∨
    (∃ w rest e, s.host = .word w :: rest ∧ decode w = .error e ∧ t = ({ s with host := rest } : State).illegalWord) := by
  match hh : s.host with
  | [] => simp [step_end s hh] at h
  | .reset :: rest =>
    rw [step_reset s rest hh] at h
    exact .inl ⟨rest, rfl, by simpa using h.symm⟩
  | .word w :: rest =>
    match hd : decode w with
    | .ok i =>
      rw [step_command s w rest i hh hd] at h
      exact .inr (.inl ⟨w, rest, i, rfl, hd, h⟩)
    | .error e =>
      rw [step_illegal s w rest e hh hd] at h
      exact .inr (.inr ⟨w, rest, e, rfl, hd, by simpa using h.symm⟩)

end Sys2Proof.Machine
end

