-- ==== Sys2Proof/Laws/Run.lean ====
section
/-! SUPPORT. Runs: one equation per event, runs one after the other, and the induction that carries a property along a run,
said once. -/

namespace Sys2Proof

open Sys2Proof.Machine

@[simp] theorem runEvents_nil (s : State) : runEvents [] s = .next s := rfl

/-- A run whose first event gives the state `u` goes on from `u`. -/
theorem runEvents_cons (ev : HostEvent) (evs : List HostEvent) (s u : State) (h : step (s.issueNext ev) = .next u) :
    runEvents (ev :: evs) s = runEvents evs u := by
  simp only [runEvents, h]

/-- A run whose first event is a command's word. -/
theorem runEvents_command (w : CmdWord) (i : Instr) (evs : List HostEvent) (s u : State) (hd : decode w = .ok i)
    (h : exec i s = .next u) : runEvents (.word w :: evs) s = runEvents evs u :=
  runEvents_cons _ _ _ _ ((step_command (s.issueNext (.word w)) w s.host i rfl hd).trans h)

/-- Every event of a run that answers a state has answered one. -/
theorem runEvents_cons_next (ev : HostEvent) (evs : List HostEvent) (s t : State) (h : runEvents (ev :: evs) s = .next t) :
    ∃ u, step (s.issueNext ev) = .next u ∧ runEvents evs u = .next t := by
  unfold runEvents at h
  split at h
  · exact ⟨_, by assumption, h⟩
  · cases h
  · cases h

/-- One run after another. -/
theorem runEvents_append (a b : List HostEvent) (s t : State) (h : runEvents a s = .next t) :
    runEvents (a ++ b) s = runEvents b t := by
  induction a generalizing s with
  | nil => cases h; rfl
  | cons ev a ih =>
    obtain ⟨u, hu, hr⟩ := runEvents_cons_next ev a s t h
    rw [List.cons_append, runEvents_cons ev (a ++ b) s u hu]
    exact ih u hr

/-- A property that the host's list does not matter to and that every step keeps holds at the end of every run it holds at
the start of. -/
theorem runEvents_invariant (P : State → Prop) (hhost : ∀ s ev, P s → P (s.issueNext ev))
    (hstep : ∀ s t, P s → step s = .next t → P t) (evs : List HostEvent) (s t : State) (hs : P s)
    (h : runEvents evs s = .next t) : P t := by
  induction evs generalizing s with
  | nil => cases h; exact hs
  | cons ev evs ih =>
    obtain ⟨u, hu, hr⟩ := runEvents_cons_next ev evs s t h
    exact ih u (hstep _ u (hhost s ev hs) hu) hr

end Sys2Proof
end

