-- ==== Sys2Proof/Tests/Slice0.lean ====
section
/-! SUPPORT. Tests. Every expected value is the spec's own: the encodings of 30_encoding.md R46 written out bit by bit, and
the vectors of 95_test_vectors.md (named in each comment); then a named witness for the hypotheses of each obligation. -/

namespace Sys2Proof.Tests

open Sys2Proof.Machine Sys2Proof.Claims

/-! ## Well-formedness: for each check, a term it refuses -/

/-- R47 (a) to (e): fields that spell no command. -/
theorem test_fields_refused :
    (CmdFields.mk 0x0 0 0).wellFormed = false ∧ (CmdFields.mk 0x7 0 0).wellFormed = false ∧
      (CmdFields.mk 0xF 15 0xFF).wellFormed = false ∧ (CmdFields.mk 0x2 8 0).wellFormed = false ∧
      (CmdFields.mk 0x3 4 0).wellFormed = false ∧ (CmdFields.mk 0x4 1 0).wellFormed = false ∧
      (CmdFields.mk 0x5 0 0x80).wellFormed = false ∧ (CmdFields.mk 0x6 0 0xFF).wellFormed = false := by decide

/-- R46: fields that do, at the ends of their ranges. -/
theorem test_fields_accepted :
    (CmdFields.mk 0x1 15 0xFF).wellFormed = true ∧ (CmdFields.mk 0x2 7 0xFF).wellFormed = true ∧
      (CmdFields.mk 0x3 3 0xFF).wellFormed = true ∧ (CmdFields.mk 0x4 0 0).wellFormed = true ∧
      (CmdFields.mk 0x5 0 0).wellFormed = true ∧ (CmdFields.mk 0x6 0 0).wellFormed = true := by decide

/-- R49, R50: an operand out of its range is an assembly error. -/
theorem test_source_refused :
    (SourceLine.ldkey 16 0).wellFormed = false ∧ (SourceLine.ldkey 0 256).wellFormed = false ∧
      (SourceLine.ldepoch 8 0).wellFormed = false ∧ (SourceLine.ldepoch 0 256).wellFormed = false ∧
      (SourceLine.ldcand 4 0).wellFormed = false ∧ (SourceLine.ldcand 0 256).wellFormed = false ∧
      (SourceLine.rawWord 65536).wellFormed = false ∧ (SourceLine.key [1, 2]).wellFormed = false ∧
      (SourceLine.key [256, 0, 0, 0, 0, 0, 0, 0, 0, 0, 0, 0, 0, 0, 0, 0]).wellFormed = false ∧
      (SourceLine.epoch 18446744073709551616).wellFormed = false ∧
      (SourceLine.cand 4294967296).wellFormed = false := by decide

/-! ## Decoding: each command's word written out from its pattern (R46) -/

/-- `0001iiiibbbbbbbb` with i = 3, b = 0x34. -/
theorem test_decode_ldkey : decode 0b0001001100110100 = .ok (.ldkey 3 0x34) := rfl

/-- `00100iiibbbbbbbb` with i = 7, b = 0x3B. -/
theorem test_decode_ldepoch : decode 0b0010011100111011 = .ok (.ldepoch 7 0x3B) := rfl

/-- `001100iibbbbbbbb` with i = 3, b = 0x6A. -/
theorem test_decode_ldcand : decode 0b0011001101101010 = .ok (.ldcand 3 0x6A) := rfl

theorem test_decode_compute : decode 0b0100000000000000 = .ok .compute := rfl

theorem test_decode_validate : decode 0b0101000000000000 = .ok .validate := rfl

theorem test_decode_clrkey : decode 0b0110000000000000 = .ok .clrkey := rfl

/-- 95_test_vectors.md section 2.1: the illegal words. -/
theorem test_decode_illegal :
    [0x0000, 0x0FFF, 0x2800, 0x2FFF, 0x3400, 0x3FFF, 0x4001, 0x4100, 0x4800, 0x5080, 0x5F00, 0x60FF, 0x6100, 0x7000,
      0x8000, 0xF000, 0xFFFF].all (fun w => (decodeTableWord 16 w).isNone) = true := by decide

/-! ## The assembler: 95_test_vectors.md section 2.2 -/

theorem test_assemble_key :
    assembleLine ("KEY 0x31 0x32 0x33 0x34 0x35 0x36 0x37 0x38 0x39 0x30 0x31 0x32 0x33 0x34 0x35 0x36 ; K16").toList =
      some [0x1031, 0x1132, 0x1233, 0x1334, 0x1435, 0x1536, 0x1637, 0x1738, 0x1839, 0x1930, 0x1A31, 0x1B32, 0x1C33,
        0x1D34, 0x1E35, 0x1F36] := by decide

theorem test_assemble_epoch : assembleLine "EPOCH 1111111109".toList =
    some [0x2000, 0x2100, 0x2200, 0x2300, 0x2442, 0x253A, 0x2635, 0x27C5] := by decide

theorem test_assemble_cand : assembleLine "CAND 970934".toList = some [0x3000, 0x310E, 0x32D0, 0x33B6] := by decide

/-- R49: `LDKEY 3, 0x34` is the word 0x1334 (vector F1), a raw word, a comment, and an operand out of range. -/
theorem test_assemble_lines :
    assembleLine "LDKEY 3, 0x34".toList = some [0x1334] ∧ assembleLine ".word 0x4001".toList = some [0x4001] ∧
      assembleLine "COMPUTE".toList = some [0x4000] ∧ assembleLine "; nothing".toList = some [] ∧
      assembleLine "LDEPOCH 8, 0".toList = none := by decide

/-! ## The datapath: 95_test_vectors.md section 3 -/

/-- Section 3.1: the last epoch whose counter fits 32 bits, the first whose does not, and the largest. -/
theorem test_serialize :
    serialize 59 = #v[0, 0, 0, 0, 0, 0, 0, 1] ∧ serialize 1111111109 = #v[0, 0, 0, 0, 0x02, 0x35, 0x23, 0xec] ∧
      serialize 128849018879 = #v[0, 0, 0, 0, 0xff, 0xff, 0xff, 0xff] ∧ serialize 128849018880 = #v[0, 0, 0, 1, 0, 0, 0, 0] ∧
      serialize 0xFFFFFFFFFFFFFFFF = #v[0x08, 0x88, 0x88, 0x88, 0x88, 0x88, 0x88, 0x88] := by decide

/-- The digest of section 3.2, count 1. -/
def rfcDigest1 : Vector Byte 20 :=
  #v[0x75, 0xa4, 0x8a, 0x19, 0xd4, 0xcb, 0xe1, 0x00, 0x64, 0x4e, 0x8a, 0xc1, 0x39, 0x7e, 0xea, 0x74, 0x7a, 0x2d, 0x33, 0xab]

/-- Section 3.2, count 1: offset 11, the top bit of the raw bits set. -/
theorem test_extract_rfc : (truncOffset rfcDigest1).toNat = 11 ∧ rawBits rfcDigest1 = 0xC1397EEA ∧
    truncated rfcDigest1 = 0x41397EEA ∧ extract rfcDigest1 = 287082 := by decide

/-- Section 3.3, X2, X4, X6, X7, X9: offset 15, the ignored nibble, the largest code, the wrap at 10^6. -/
theorem test_extract_corners :
    extract (Vector.replicate 20 0xff) = 483647 ∧
      extract #v[0, 1, 2, 3, 4, 5, 6, 7, 8, 9, 10, 11, 12, 13, 14, 15, 16, 17, 18, 0xaf] = 711186 ∧
      extract #v[0x80, 0x0f, 0x42, 0x3f, 0, 0, 0, 0, 0, 0, 0, 0, 0, 0, 0, 0, 0, 0, 0, 0xf0] = 999999 ∧
      extract #v[0, 0x0f, 0x42, 0x40, 0, 0, 0, 0, 0, 0, 0, 0, 0, 0, 0, 0, 0, 0, 0, 0] = 0 ∧
      extract #v[0, 0, 0, 0, 0, 0, 0, 0, 0, 0, 0, 0, 0, 0, 0, 0, 0, 0, 1, 0xff] = 1 := by decide

/-- Section 3.4, V1 to V6. -/
theorem test_compare : compareCode 970934 970934 = 1 ∧ compareCode 970934 970935 = 0 ∧ compareCode 970934 2019510 = 0 ∧
    compareCode 970934 1970934 = 0 ∧ compareCode 999999 0 = 0 := by decide

/-! ## One step of each command: 95_test_vectors.md sections 2.3 and 4 -/

/-- The fixture key K16. -/
def keyK16 : Vector Byte 16 :=
  #v[0x31, 0x32, 0x33, 0x34, 0x35, 0x36, 0x37, 0x38, 0x39, 0x30, 0x31, 0x32, 0x33, 0x34, 0x35, 0x36]

/-- The state "L" of section 2.3: K16, EPOCH 59 and CAND 970934 loaded from reset. -/
def loaded : State :=
  { State.reset with
    key := keyK16, kmask := 0xFFFF, epoch := 59, emask := 0xFF, cand := 970934, cmask := 0xF }

/-- The engine as the finite table of vector E4: it answers the one digest of E4. -/
def hmacE4 : HmacFn := fun _ _ =>
  #v[0x3D, 0x08, 0x8E, 0x76, 0x90, 0x38, 0x50, 0xD1, 0xB8, 0x9C, 0xF5, 0x42, 0x49, 0x8F, 0xBB, 0x70, 0xCD, 0xD4, 0x35, 0xA0]

/-- The state an outcome answers. -/
def nextOf : Host.Outcome State Fault Refusal → Option State
  | .next s => some s
  | .fault _ => none
  | .refused _ => none

/-- F1, as the first word after reset. -/
theorem test_ldkey : (nextOf (step (State.reset.withFetchWord 16 0x1334))).map (fun t => (t.key[3], t.kmask, t.ports.keyvO)) =
    some (0x34, 0x0008, 0) := by decide

/-- The last index and an overwritten byte (R52 corner case 1). -/
theorem test_ldkey_last : (nextOf (exec (.ldkey 15 0xAA) loaded)).map (fun t => (t.key[15], t.key[14], t.kmask)) =
    some (0xAA, 0x35, 0xFFFF) := by decide

/-- R53's example, as the first word after reset. -/
theorem test_ldepoch : (nextOf (step (State.reset.withFetchWord 16 0x273B))).map (fun t => (t.epoch, t.emask, t.ports.epochvO)) =
    some (0x3B, 0x80, 0) := by decide

/-- P6: the byte 3 of an epoch time above 32 bits. -/
theorem test_ldepoch_high : (nextOf (exec (.ldepoch 3 0x1E) State.reset)).map (fun t => (t.epoch, t.emask)) =
    some (128849018880, 0x08) := by decide

/-- R54's example, as the first word after reset. -/
theorem test_ldcand : (nextOf (step (State.reset.withFetchWord 16 0x336A))).map (fun t => (t.cand, t.cmask, t.ports.candvO)) =
    some (0x6A, 0x8, 0) := by decide

/-- P2 step 3: one byte of a loaded candidate replaced. -/
theorem test_ldcand_reload : (nextOf (exec (.ldcand 3 0xB7) loaded)).map (fun t => (t.cand, t.cmask)) =
    some (970935, 0xF) := by decide

/-- F6 with E4's digest: the code, and one invocation with K16 and the message of step 1. -/
theorem test_compute :
    (loaded.computeWith hmacE4).code = 970934 ∧ (loaded.computeWith hmacE4).codev = 1 ∧
      (loaded.computeWith hmacE4).err = 0 ∧
      (loaded.computeWith hmacE4).calls = [{ key := keyK16, msg := #v[0, 0, 0, 0, 0, 0, 0, 1] }] := by decide

/-- F3: from reset, NOKEY and NOEPOCH together. -/
theorem test_compute_faults : (nextOf (step (State.reset.withFetchWord 16 0x4000))).map (fun t => (t.err, t.codev, t.calls)) =
    some (0b0110, 0, []) := by decide

/-- F7 with E4's digest. -/
theorem test_validate :
    (loaded.validateWith hmacE4).matchBit = 1 ∧ (loaded.validateWith hmacE4).matchv = 1 ∧
      (loaded.validateWith hmacE4).code = 0xFFFFF ∧ (loaded.validateWith hmacE4).codev = 0 := by decide

/-- F4: from reset, NOKEY, NOEPOCH and NOCAND together. -/
theorem test_validate_faults : (nextOf (step (State.reset.withFetchWord 16 0x5000))).map (fun t => (t.err, t.matchv, t.calls)) =
    some (0b1110, 0, []) := by decide

/-- F12: the key is gone and the epoch time stays. -/
theorem test_clrkey : (nextOf (exec .clrkey (loaded.computeWith hmacE4))).map
    (fun t => (t.key, t.kmask, t.code, t.epoch, t.emask)) = some (Vector.replicate 16 0, 0, 0xFFFFF, 59, 0xFF) := by decide

/-- F8: an illegal word sets ERR[0] and leaves the code. -/
theorem test_illegal : (nextOf (step ((loaded.computeWith hmacE4).withFetchWord 16 0x4001))).map
    (fun t => (t.err, t.code, t.codev)) = some (0b0001, 970934, 1) := by decide

/-- F14: reset clears ERR. -/
theorem test_reset_step : (nextOf (step { loaded with err := 0b1111, host := [.reset] })).map
    (fun t => (t.err, t.kmask, t.code)) = some (0, 0, 0xFFFFF) := by decide

/-! ## Witnesses: for each obligation with hypotheses, a concrete state and operands that meet them, clause by clause -/

theorem loaded_key : KeyLoaded loaded := by decide

theorem loaded_epoch : EpochLoaded loaded := by decide

theorem loaded_cand : CandLoaded loaded := by decide

/-- The state before a word of a run: `s` with the host about to issue `ev`. -/
abbrev before (s : State) (ev : HostEvent) : State := s.issueNext ev

theorem witness_ResetStepWritesEveryRegister :
    (before loaded .reset).host = .reset :: [] ∧
      ((before loaded (.word 0x0000)).host = .word 0x0000 :: [] ∧
        ∃ t, step (before loaded (.word 0x0000)) = .next t) := ⟨rfl, rfl, _, rfl⟩

theorem witness_StepRunsTheDecodedCommand :
    (before loaded (.word 0x1FFF)).host = .word 0x1FFF :: [] ∧ decode 0x1FFF = .ok (.ldkey 15 0xFF) ∧
      decodeTableWord 16 0x6000 = some .clrkey := ⟨rfl, rfl, rfl⟩

theorem witness_EveryEventIsTaken : (before loaded (.word 0xFFFF)).host = .word 0xFFFF :: [] ∧ loaded.host = [] :=
  ⟨rfl, rfl⟩

/-- One word for each row of R46 at the end of its range, and one for the words outside all rows. -/
theorem witness_WordDecodesByItsRow :
    (0x1FFF : CmdWord) &&& 0xF000 = 0x1000 ∧ (0x27FF : CmdWord) &&& 0xF800 = 0x2000 ∧
      (0x33FF : CmdWord) &&& 0xFC00 = 0x3000 ∧ (0x4000 : CmdWord) &&& 0xFFFF = 0x4000 ∧
      (0x5000 : CmdWord) &&& 0xFFFF = 0x5000 ∧ (0x6000 : CmdWord) &&& 0xFFFF = 0x6000 ∧
      ((0x2800 : CmdWord) &&& 0xF000 ≠ 0x1000 ∧ (0x2800 : CmdWord) &&& 0xF800 ≠ 0x2000 ∧
        (0x2800 : CmdWord) &&& 0xFC00 ≠ 0x3000 ∧ (0x2800 : CmdWord) ≠ 0x4000 ∧ (0x2800 : CmdWord) ≠ 0x5000 ∧
        (0x2800 : CmdWord) ≠ 0x6000) ∧
      ((opcodeRows.get ⟨5, by decide⟩).accepts 0x6000 = true) := by decide

/-- The ends of the ranges of R47, and the legal words beside them. -/
theorem witness_IllegalWordsAreExactlyTheListed :
    (∀ n ∈ [0x0000, 0x0FFF, 0x7000, 0xFFFF, 0x2800, 0x2FFF, 0x3400, 0x3FFF, 0x4001, 0x4FFF, 0x5001, 0x5FFF, 0x6001,
      0x6FFF], IllegalRange n) ∧
    (∀ n ∈ [0x1000, 0x1FFF, 0x2000, 0x27FF, 0x3000, 0x33FF, 0x4000, 0x5000, 0x6000], ¬ IllegalRange n) ∧
    (before loaded (.word 0x2800)).host = .word 0x2800 :: [] := by
  refine ⟨?_, ?_, rfl⟩ <;> simp [IllegalRange]

theorem witness_DecodeAndEncodeAgree : decode 0x27FF = .ok (.ldepoch 7 0xFF) := rfl

/-- A byte index that differs from the one loaded, and a bit outside the byte loaded. -/
theorem witness_LoadFrames :
    (0 : BitVec 4) ≠ 15 ∧ ¬ (56 - 8 * (7 : BitVec 3).toNat ≤ 8 ∧ 8 ≤ 63 - 8 * (7 : BitVec 3).toNat) ∧
      ¬ (24 - 8 * (0 : BitVec 2).toNat ≤ 23 ∧ 23 ≤ 31 - 8 * (0 : BitVec 2).toNat) := by decide

theorem witness_CounterIsEpochDivThirty :
    30 * 1 ≤ (59 : BitVec 64).toNat ∧ (59 : BitVec 64).toNat ≤ 30 * 1 + 29 ∧ 30 * 1 ≤ (30 : BitVec 64).toNat := by decide

theorem witness_SliceNeverIncludesTheLastByte :
    ∃ d d' : Vector Byte 20, d ≠ d' ∧ (∀ i : Fin 19, d[i.val] = d'[i.val]) ∧ d[19].toNat % 16 = d'[19].toNat % 16 :=
  ⟨(Vector.replicate 20 0).set 19 0x0F, (Vector.replicate 20 0).set 19 0xFF, by decide, by decide, by decide⟩

theorem witness_ReductionImagesAreCounted : 483647 ≤ 999999 ∧ 483648 ≤ 999999 ∧ ¬ 483648 ≤ 483647 := by decide

/-- V5 and V4 of section 3.4. -/
theorem witness_CompareIsExactIntegerEquality :
    (970934 : BitVec 20).toNat ≤ 999999 ∧ 999999 < (1970934 : BitVec 32).toNat ∧
      (2019510 : BitVec 32).toNat % 2 ^ 20 = (970934 : BitVec 20).toNat ∧ (2019510 : BitVec 32).toNat / 2 ^ 20 ≠ 0 := by
  decide

theorem witness_CodeIsDeterministicAndInRange :
    (30 : BitVec 64).toNat / 30 = (59 : BitVec 64).toNat / 30 ∧ ∃ t, exec .compute loaded = .next t := ⟨by decide, _, rfl⟩

theorem witness_OperandBytesAreBigEndian : ∀ i, byteAt (59 : BitVec 64) (epochLsb i) = byteAt (59 : BitVec 64) (epochLsb i) :=
  fun _ => rfl

/-- Both operands loaded; neither; and each one alone missing. -/
theorem witness_ComputeDerivesTheCodeOrFaults :
    (KeyLoaded loaded ∧ EpochLoaded loaded) ∧ ¬ (KeyLoaded State.reset ∧ EpochLoaded State.reset) ∧
      ¬ KeyLoaded { loaded with kmask := 0x7FFF } ∧ ¬ EpochLoaded { loaded with emask := 0xF0 } := by decide

theorem witness_ValidateComparesOrFaults :
    (KeyLoaded loaded ∧ EpochLoaded loaded ∧ CandLoaded loaded) ∧
      ¬ (KeyLoaded loaded ∧ EpochLoaded loaded ∧ CandLoaded { loaded with cmask := 0x7 }) := by decide

/-- A candidate equal to the code of the loaded operands, and one equal to the code plus 1 modulo 10^6, exist whatever the
engine answers. -/
theorem witness_ValidationIsCorrect :
    KeyLoaded loaded ∧ EpochLoaded loaded ∧ ∃ (t : State) (v v' : BitVec 32), exec .compute loaded = .next t ∧
      v.toNat = t.code.toNat ∧ v'.toNat = (t.code.toNat + 1) % 1000000 := by
  refine ⟨loaded_key, loaded_epoch, loaded.computeWith Config.hmac, (loaded.computeWith Config.hmac).code.setWidth 32,
    BitVec.ofNat 32 (((loaded.computeWith Config.hmac).code.toNat + 1) % 1000000), rfl, ?_, ?_⟩
  · have := (loaded.computeWith Config.hmac).code.isLt
    rw [BitVec.toNat_setWidth]
    omega
  · rw [BitVec.toNat_ofNat]
    omega

theorem witness_RepeatedCommandsLeaveTheSameState :
    (∃ t, exec (.ldkey 15 0) loaded = .next t) ∧ (∃ t, exec (.ldepoch 7 0) loaded = .next t) ∧
      (∃ t, exec (.ldcand 3 0) loaded = .next t) ∧
      (∃ t, exec .compute loaded = .next t ∧ t.calls = loaded.calls ++ t.calls) ∧
      (∃ t, exec .validate loaded = .next t ∧ t.calls = loaded.calls ++ t.calls) :=
  ⟨⟨_, rfl⟩, ⟨_, rfl⟩, ⟨_, rfl⟩, ⟨_, rfl, rfl⟩, ⟨_, rfl, rfl⟩⟩

/-- A state that holds a valid code, and meets the invariants of R32, whatever the engine answers. -/
def withCode : State := { loaded with code := computeCode Config.hmac loaded.key loaded.epoch, codev := 1 }

theorem withCode_inv : UnitInv withCode where
  notBoth := by simp [withCode, loaded, State.reset]
  codeFlag := by simpa [withCode] using computeCode_ne_noCode _ _ _
  codeRange := fun _ => Nat.le_of_lt_succ (toNat_computeCode_lt _ _ _)
  matchClear := fun _ => rfl
  codeCurrent := fun _ => ⟨rfl, rfl, rfl⟩
  matchCurrent := fun h => absurd (show (0 : Bit) = 1 from h) (by decide)

theorem witness_StepKeepsTheInvariants :
    UnitInv (before withCode (.word 0x4001)) ∧ ∃ t, step (before withCode (.word 0x4001)) = .next t := by
  obtain ⟨a, b, c, d, e, f⟩ := withCode_inv
  exact ⟨⟨a, b, c, d, e, f⟩, _, rfl⟩

theorem witness_ReachableStatesMeetR32 :
    ∃ t u, runEvents [.word 0x4000] State.reset = .next t ∧ HostEvent.reset ∉ [HostEvent.word 0x0000] ∧
      runEvents ([.word 0x4000] ++ [.word 0x0000]) State.reset = .next u := ⟨_, _, rfl, by decide, rfl⟩

theorem witness_StepKeepsUnloadedStorageZero :
    UnloadedZero (before State.reset (.word 0x1334)) ∧ ∃ t, step (before State.reset (.word 0x1334)) = .next t :=
  ⟨⟨by decide, by decide, by decide⟩, _, rfl⟩

/-- Two different states with the same view: they differ in the storage behind an unloaded byte. -/
theorem witness_UnloadedBytesAreNeverRead :
    ∃ s1 s2 : State, s1 ≠ s2 ∧ SameView s1 s2 ∧ ∃ t, step s1 = .next t :=
  ⟨before State.reset (.word 0x4000), before { State.reset with key := State.reset.key.set 15 5 } (.word 0x4000),
    by decide, by decide, _, rfl⟩

/-- Two different keys, and a load issued to both. -/
theorem witness_KeyReachesPorts_load :
    ∃ s1 s2 : State, s1.key ≠ s2.key ∧ SameButKey s1 s2 ∧ s1.host = [.word 0x1334] :=
  ⟨before loaded (.word 0x1334), before { loaded with key := Vector.replicate 16 0xff } (.word 0x1334), by decide,
    by decide, rfl⟩

/-- A key with the three given bytes first, the rest 0x00. -/
def keyOf (n : BitVec 24) : Vector Byte 16 :=
  #v[byteAt n 16, byteAt n 8, byteAt n 0, 0, 0, 0, 0, 0, 0, 0, 0, 0, 0, 0, 0, 0]

theorem keyOf_injective (m n : BitVec 24) (h : keyOf m = keyOf n) : m = n := by
  have h0 : byteAt m 16 = byteAt n 16 := congrArg (fun k : Vector Byte 16 => k[0]) h
  have h1 : byteAt m 8 = byteAt n 8 := congrArg (fun k : Vector Byte 16 => k[1]) h
  have h2 : byteAt m 0 = byteAt n 0 := congrArg (fun k : Vector Byte 16 => k[2]) h
  simp only [byteAt, ← BitVec.toNat_inj, BitVec.extractLsb'_toNat, Nat.shiftRight_eq_div_pow] at h0 h1 h2
  apply BitVec.eq_of_toNat_eq
  omega

/-- Whatever the engine answers, two different keys have the same code: there are more keys than codes. -/
theorem two_keys_one_code (e : BitVec 64) :
    ∃ k k' : Vector Byte 16, k ≠ k' ∧ computeCode Config.hmac k e = computeCode Config.hmac k' e := by
  obtain ⟨m, n, hne, h⟩ := Fintype.exists_ne_map_eq_of_card_lt
    (fun n : Fin (2 ^ 24) => (computeCode Config.hmac (keyOf (BitVec.ofFin n)) e).toFin) (by simp)
  refine ⟨keyOf (BitVec.ofFin m), keyOf (BitVec.ofFin n), fun hk => hne ?_, BitVec.toFin_injective h⟩
  exact congrArg BitVec.toFin (keyOf_injective _ _ hk)

/-- Two different keys with the same code, and COMPUTE or VALIDATE issued to both. -/
theorem witness_KeyReachesPortsOnlyThroughCodeAndMatch :
    ∃ k k' : Vector Byte 16, k ≠ k' ∧ ∀ w : CmdWord,
      SameButKey (before { loaded with key := k } (.word w)) (before { loaded with key := k' } (.word w)) ∧
        computeCode Config.hmac k loaded.epoch = computeCode Config.hmac k' loaded.epoch ∧
        compareCode (computeCode Config.hmac k loaded.epoch) loaded.cand =
          compareCode (computeCode Config.hmac k' loaded.epoch) loaded.cand := by
  obtain ⟨k, k', hne, h⟩ := two_keys_one_code loaded.epoch
  exact ⟨k, k', hne, fun w => ⟨⟨rfl, rfl, rfl, rfl, rfl, ⟨rfl, rfl, rfl, rfl⟩, rfl, rfl⟩, h, by rw [h]⟩⟩

/-- A successful COMPUTE, a successful VALIDATE, and an event that invokes nothing. -/
theorem witness_InvocationsAreThoseOfSuccessfulCommands :
    (∃ t, step (before loaded (.word 0x4000)) = .next t) ∧ (∃ t, step (before loaded (.word 0x5000)) = .next t) ∧
      KeyLoaded loaded ∧ EpochLoaded loaded ∧ CandLoaded loaded ∧
      (∃ t, step (before loaded .reset) = .next t) ∧ (HostEvent.reset ≠ .word 0x4000 ∧ HostEvent.reset ≠ .word 0x5000) :=
  ⟨⟨_, rfl⟩, ⟨_, rfl⟩, loaded_key, loaded_epoch, loaded_cand, ⟨_, rfl⟩, by decide⟩

theorem witness_OperandsChangeOnlyByTheirCommands :
    (∃ t, exec .compute loaded = .next t) ∧ (∀ k b, Instr.compute ≠ .ldkey k b) ∧ Instr.compute ≠ .clrkey ∧
      SameOperands loaded { loaded with err := 1 } ∧ (∃ t, exec .compute { loaded with err := 1 } = .next t) ∧
      (∃ t, step (before loaded (.word 0x0000)) = .next t) ∧ decode 0x0000 = .error .opcodeZero :=
  ⟨⟨_, rfl⟩, by simp, by simp, by decide, ⟨_, rfl⟩, ⟨_, rfl⟩, rfl⟩

theorem witness_ResultsAreInvalidatedWhereR24Says :
    (∃ t, exec .clrkey loaded = .next t) ∧
      (∃ t, exec .compute State.reset = .next t) ∧ ¬ (KeyLoaded State.reset ∧ EpochLoaded State.reset) ∧
      (∃ t, exec .validate State.reset = .next t) ∧
      ¬ (KeyLoaded State.reset ∧ EpochLoaded State.reset ∧ CandLoaded State.reset) ∧
      (∃ t, step (before loaded .reset) = .next t) ∧
      (∃ t, step (before loaded (.word 0xFFFF)) = .next t) ∧ decode 0xFFFF = .error .opcodeUnassigned :=
  ⟨⟨_, rfl⟩, ⟨_, rfl⟩, by decide, ⟨_, rfl⟩, by decide, ⟨_, rfl⟩, ⟨_, rfl⟩, rfl⟩

theorem witness_FaultBitsAreExactlyTheirCauses :
    (∃ t, step (before State.reset (.word 0x5000)) = .next t) ∧ Cause State.reset 0x5000 3 ∧
      Cause State.reset 0x0000 0 :=
  ⟨⟨_, rfl⟩, .inr ⟨.inr rfl, .inr (.inr ⟨rfl, rfl, by decide⟩)⟩, .inl ⟨rfl, _, rfl⟩⟩

theorem witness_FaultingStepDoesNothingMore :
    ((before loaded (.word 0x4001)).host = [.word 0x4001] ∧ decode 0x4001 = .error .operandNotZero) ∧
      ((before State.reset (.word 0x4000)).host = [.word 0x4000] ∧ ∃ n < 4, Cause State.reset 0x4000 n) :=
  ⟨⟨rfl, rfl⟩, rfl, 1, by decide, .inr ⟨.inl rfl, .inl ⟨rfl, by decide⟩⟩⟩

theorem witness_FaultBitsBlockNoCommand : ∃ t, exec .compute loaded = .next t := ⟨_, rfl⟩

/-- A run without a fault, and one with. -/
theorem witness_NoFaultExactlyWhenErrIsZero :
    (∃ t, runEvents [.word 0x1334] State.reset = .next t ∧ FaultFree t) ∧
      (∃ t, runEvents [.word 0x4000] State.reset = .next t ∧ ¬ FaultFree t) ∧
      HostEvent.reset ∉ [HostEvent.word 0x1334] ∧ HostEvent.reset ∉ [HostEvent.word 0x4000] :=
  ⟨⟨_, rfl, by unfold FaultFree; decide⟩, ⟨_, rfl, by unfold FaultFree; decide⟩, by decide, by decide⟩

theorem witness_RegistersDependOnRegistersAlone :
    SameRegisters loaded (before loaded .reset) ∧ ∃ t, exec .validate loaded = .next t := ⟨by decide, _, rfl⟩

/-- The four bytes of a candidate, loaded one by one, are the candidate. -/
theorem load_four_bytes (c v : BitVec 32) :
    setByteAt (setByteAt (setByteAt (setByteAt c 24 (byteAt v 24)) 16 (byteAt v 16)) 8 (byteAt v 8)) 0 (byteAt v 0) = v := by
  apply BitVec.eq_of_getLsbD_eq
  intro n hn
  simp only [getLsbD_setByteAt _ _ _ _ (show 24 + 8 ≤ 32 by omega), getLsbD_setByteAt _ _ _ _ (show 16 + 8 ≤ 32 by omega),
    getLsbD_setByteAt _ _ _ _ (show 8 + 8 ≤ 32 by omega), getLsbD_setByteAt _ _ _ _ (show 0 + 8 ≤ 32 by omega),
    getLsbD_byteAt]
  interval_cases n <;> simp

theorem decode_ldcand_word (i : BitVec 2) (b : Byte) : decode (encode (.ldcand i b)) = .ok (.ldcand i b) := by
  revert i b
  decide +kernel

/-- The words of program P1 steps 1 and 2: K16 and EPOCH 59. -/
def keyAndEpochWords : List HostEvent :=
  [0x1031, 0x1132, 0x1233, 0x1334, 0x1435, 0x1536, 0x1637, 0x1738, 0x1839, 0x1930, 0x1A31, 0x1B32, 0x1C33, 0x1D34, 0x1E35,
    0x1F36, 0x2000, 0x2100, 0x2200, 0x2300, 0x2400, 0x2500, 0x2600, 0x273B].map .word

/-- The state they leave. -/
def keyAndEpoch : State := { loaded with cand := 0, cmask := 0 }

theorem run_keyAndEpoch : runEvents keyAndEpochWords State.reset = .next keyAndEpoch := rfl

/-- Whatever the engine answers, a run from reset ends with `MATCH_O = 1`: key, epoch time, the code as the candidate,
VALIDATE. -/
theorem witness_AcceptingOnMatchAloneIsSafe : ∃ evs t, runEvents evs State.reset = .next t ∧ t.ports.matchO = 1 := by
  let v : BitVec 32 := (computeCode Config.hmac keyK16 59).setWidth 32
  let u : State := ((((keyAndEpoch.loadCandByte 0 (byteAt v 24)).invalidateResults.loadCandByte 1
    (byteAt v 16)).invalidateResults.loadCandByte 2 (byteAt v 8)).invalidateResults.loadCandByte 3
    (byteAt v 0)).invalidateResults
  refine ⟨keyAndEpochWords ++ [.word (encode (.ldcand 0 (byteAt v 24))), .word (encode (.ldcand 1 (byteAt v 16))),
    .word (encode (.ldcand 2 (byteAt v 8))), .word (encode (.ldcand 3 (byteAt v 0))), .word 0x5000],
    u.validateWith Config.hmac, ?_, ?_⟩
  · rw [runEvents_append _ _ _ _ run_keyAndEpoch,
      runEvents_command _ _ _ _ _ (decode_ldcand_word _ _) (exec_ldcand _ _ _),
      runEvents_command _ _ _ _ _ (decode_ldcand_word _ _) (exec_ldcand _ _ _),
      runEvents_command _ _ _ _ _ (decode_ldcand_word _ _) (exec_ldcand _ _ _),
      runEvents_command _ _ _ _ _ (decode_ldcand_word _ _) (exec_ldcand _ _ _),
      runEvents_command _ .validate _ _ _ rfl (exec_validate _), runEvents_nil]
  · have hk : u.keyValid = true := rfl
    have he : u.epochValid = true := rfl
    have hm : u.cmask = 0xF := show setBit (setBit (setBit (setBit (0 : BitVec 4) 0) 1) 2) 3 = 0xF by decide
    have hc : u.candValid = true := by rw [State.candValid, hm]; decide
    obtain ⟨-, -, -, h⟩ | ⟨h, -⟩ := u.validateWith_cases Config.hmac
    · rw [h]
      exact (compareCode_eq_one _ _).mpr (load_four_bytes 0 v).symm
    · simp [hk, he, hc] at h

theorem witness_OneStepHasOneMessage :
    (31 : BitVec 64).toNat / 30 = loaded.epoch.toNat / 30 ∧ ∃ t, exec .validate loaded = .next t := ⟨by decide, _, rfl⟩

/-- The loads of every operand byte. -/
def allLoads : List Instr :=
  (List.finRange 16).map (fun i => .ldkey (.ofFin i) 0) ++ (List.finRange 8).map (fun i => .ldepoch (.ofFin i) 0) ++
    (List.finRange 4).map (fun i => .ldcand (.ofFin i) 0)

/-- All bytes loaded; and a list that leaves out a byte of each operand. -/
theorem witness_LoadsInAnyOrderMakeReady :
    (∀ i ∈ allLoads, (∃ k b, i = .ldkey k b) ∨ (∃ k b, i = .ldepoch k b) ∨ (∃ k b, i = .ldcand k b)) ∧
      (∀ k, ∃ b, .ldkey k b ∈ allLoads) ∧ (∀ k, ∃ b, .ldepoch k b ∈ allLoads) ∧ (∀ k, ∃ b, .ldcand k b ∈ allLoads) ∧
      (∀ b, .ldkey 0 b ∉ [Instr.ldkey 1 0]) ∧ (∀ b, .ldepoch 0 b ∉ [Instr.ldkey 1 0]) ∧
      (∀ b, .ldcand 0 b ∉ [Instr.ldkey 1 0]) := by
  refine ⟨?_, fun k => ⟨0, ?_⟩, fun k => ⟨0, ?_⟩, fun k => ⟨0, ?_⟩, by simp, by simp, by simp⟩
  · intro i hi
    simp only [allLoads, List.mem_append, List.mem_map] at hi
    obtain (⟨k, -, rfl⟩ | ⟨k, -, rfl⟩) | ⟨k, -, rfl⟩ := hi
    exacts [.inl ⟨_, _, rfl⟩, .inr (.inl ⟨_, _, rfl⟩), .inr (.inr ⟨_, _, rfl⟩)]
  all_goals
    simp only [allLoads, List.mem_append, List.mem_map]
  exacts [.inl (.inl ⟨k.toFin, by simp, rfl⟩), .inl (.inr ⟨k.toFin, by simp, rfl⟩), .inr ⟨k.toFin, by simp, rfl⟩]

theorem witness_PartialReloadIsNotNoticed : KeyLoaded loaded ∧ EpochLoaded loaded ∧ CandLoaded loaded :=
  ⟨loaded_key, loaded_epoch, loaded_cand⟩

theorem witness_PseudoCommandsLoadWholeOperands :
    (List.replicate 16 255).length = 16 ∧ (∀ b ∈ List.replicate 16 255, b < 256) ∧ 2 ^ 64 - 1 < 2 ^ 64 ∧
      2 ^ 32 - 1 < 2 ^ 32 := by decide

end Sys2Proof.Tests
end

/-! SUPPORT. Facts about commands, steps and runs that the statements below share: what a command leaves unchanged, what it
makes of the results and of `ERR`, and the principle that carries a relation between two states along a step. -/

namespace Sys2Proof.Proofs

open Sys2Proof.Machine Sys2Proof.Claims

/-! ## Masks and ports -/

theorem keyValid_eq_true (s : State) : s.keyValid = true ↔ s.kmask = 0xFFFF := by simp [State.keyValid]

theorem epochValid_eq_true (s : State) : s.epochValid = true ↔ s.emask = 0xFF := by simp [State.epochValid]

theorem candValid_eq_true (s : State) : s.candValid = true ↔ s.cmask = 0xF := by simp [State.candValid]

/-- The valid flags are functions of the masks (R12, R15, R17). -/
theorem validFlags_congr {s t : State} (hk : t.kmask = s.kmask) (he : t.emask = s.emask) (hc : t.cmask = s.cmask) :
    t.keyValid = s.keyValid ∧ t.epochValid = s.epochValid ∧ t.candValid = s.candValid := by
  simp [State.keyValid, State.epochValid, State.candValid, hk, he, hc]

/-- The ports are functions of the masks, the results and `ERR` (R26). -/
theorem ports_congr {s t : State} (hk : t.kmask = s.kmask) (he : t.emask = s.emask) (hc : t.cmask = s.cmask)
    (hr : SameResults s t) (herr : t.err = s.err) : s.ports = t.ports := by
  obtain ⟨hcode, hcodev, hmatch, hmatchv⟩ := hr
  obtain ⟨hkv, hev, hcv⟩ := validFlags_congr hk he hc
  simp [State.ports, hkv, hev, hcv, hcode, hcodev, hmatch, hmatchv, herr]

/-- The port of a valid flag is 1 exactly when its mask is full (R26). -/
theorem ofBool_beq_eq_ite {w : Nat} (m full : BitVec w) : BitVec.ofBool (m == full) = if m = full then 1 else 0 := by
  by_cases h : m = full
  · simp [h]
  · rw [beq_false_of_ne h, if_neg h]
    rfl

/-! ## What one command does -/

/-- Invalidated results are the pattern of R24, whatever the state. -/
theorem resultsInvalid_invalidateResults (s : State) : ResultsInvalid s.invalidateResults := ⟨rfl, rfl, rfl, rfl⟩

/-- COMPUTE changes no operand and leaves the host's list (R19). -/
theorem computeWith_frame (hmac : HmacFn) (s : State) :
    SameOperands s (s.computeWith hmac) ∧ (s.computeWith hmac).host = s.host := by
  obtain ⟨-, -, h⟩ | ⟨-, h⟩ := s.computeWith_cases hmac
  all_goals exact h ▸ ⟨⟨rfl, rfl, rfl, rfl, rfl, rfl⟩, rfl⟩

/-- VALIDATE changes no operand and leaves the host's list (R19). -/
theorem validateWith_frame (hmac : HmacFn) (s : State) :
    SameOperands s (s.validateWith hmac) ∧ (s.validateWith hmac).host = s.host := by
  obtain ⟨-, -, -, h⟩ | ⟨-, h⟩ := s.validateWith_cases hmac
  all_goals exact h ▸ ⟨⟨rfl, rfl, rfl, rfl, rfl, rfl⟩, rfl⟩

/-- The results of COMPUTE are a function of the operands (R19). -/
theorem computeWith_sameResults (hmac : HmacFn) {s t : State} (h : SameOperands s t) :
    SameResults (s.computeWith hmac) (t.computeWith hmac) := by
  obtain ⟨hkey, hkm, hepoch, hem, -, hcm⟩ := h
  obtain ⟨hkv, hev, -⟩ := validFlags_congr hkm hem hcm
  have hf : t.computeFaults = s.computeFaults := by simp only [State.computeFaults, hkv, hev]
  simp only [State.computeWith, hf]
  split <;> simp [SameResults, hkey, hepoch]

/-- The results of VALIDATE are a function of the operands (R19). -/
theorem validateWith_sameResults (hmac : HmacFn) {s t : State} (h : SameOperands s t) :
    SameResults (s.validateWith hmac) (t.validateWith hmac) := by
  obtain ⟨hkey, hkm, hepoch, hem, hcand, hcm⟩ := h
  obtain ⟨hkv, hev, hcv⟩ := validFlags_congr hkm hem hcm
  have hf : t.validateFaults = s.validateFaults := by
    simp only [State.validateFaults, State.computeFaults, hkv, hev, hcv]
  simp only [State.validateWith, hf]
  split <;> simp [SameResults, hkey, hepoch, hcand]

/-- Every command answers a next state and leaves the host's list as it is. -/
theorem exec_next (i : Instr) (s : State) : ∃ t, exec i s = .next t ∧ t.host = s.host := by
  cases i with
  | ldkey k b => exact ⟨_, exec_ldkey k b s, rfl⟩
  | ldepoch k b => exact ⟨_, exec_ldepoch k b s, rfl⟩
  | ldcand k b => exact ⟨_, exec_ldcand k b s, rfl⟩
  | compute => exact ⟨_, exec_compute s, (computeWith_frame _ s).2⟩
  | validate => exact ⟨_, exec_validate s, (validateWith_frame _ s).2⟩
  | clrkey => exact ⟨_, exec_clrkey s, rfl⟩

/-- What a command can make of the results: they are invalid (R24), or it was a COMPUTE or a VALIDATE with every operand it
needs (R66, R68). -/
theorem exec_result_cases {i : Instr} {s t : State} (h : exec i s = .next t) :
    ResultsInvalid t ∨
    (i = .compute ∧ s.keyValid = true ∧ s.epochValid = true ∧
      t = (s.recordCall { key := s.key, msg := serialize s.epoch }).putCode (computeCode Config.hmac s.key s.epoch)) ∨
    (i = .validate ∧ s.keyValid = true ∧ s.epochValid = true ∧ s.candValid = true ∧
      t = (s.recordCall { key := s.key, msg := serialize s.epoch }).putMatch
        (compareCode (computeCode Config.hmac s.key s.epoch) s.cand)) := by
  cases i with
  | ldkey k b => cases h; exact .inl (resultsInvalid_invalidateResults _)
  | ldepoch k b => cases h; exact .inl (resultsInvalid_invalidateResults _)
  | ldcand k b => cases h; exact .inl (resultsInvalid_invalidateResults _)
  | clrkey => cases h; exact .inl (resultsInvalid_invalidateResults _)
  | compute =>
    cases h
    obtain ⟨hk, he, ht⟩ | ⟨-, ht⟩ := s.computeWith_cases Config.hmac
    · exact .inr (.inl ⟨rfl, hk, he, ht⟩)
    · exact .inl (ht ▸ resultsInvalid_invalidateResults _)
  | validate =>
    cases h
    obtain ⟨hk, he, hc, ht⟩ | ⟨-, ht⟩ := s.validateWith_cases Config.hmac
    · exact .inr (.inr ⟨rfl, hk, he, hc, ht⟩)
    · exact .inl (ht ▸ resultsInvalid_invalidateResults _)

/-- A command writes `ERR` only by setting bits (R74). -/
theorem exec_err_or {i : Instr} {s t : State} (h : exec i s = .next t) : ∃ bits, t.err = s.err ||| bits := by
  have unchanged {u : State} (hu : u.err = s.err) : ∃ bits, u.err = s.err ||| bits := ⟨0, by simp [hu]⟩
  cases i with
  | ldkey k b => cases h; exact unchanged rfl
  | ldepoch k b => cases h; exact unchanged rfl
  | ldcand k b => cases h; exact unchanged rfl
  | clrkey => cases h; exact unchanged rfl
  | compute =>
    cases h
    obtain ⟨-, -, ht⟩ | ⟨-, ht⟩ := s.computeWith_cases Config.hmac
    · exact unchanged (by simp [ht])
    · exact ⟨_, by rw [ht, State.faultCommand_err]⟩
  | validate =>
    cases h
    obtain ⟨-, -, -, ht⟩ | ⟨-, ht⟩ := s.validateWith_cases Config.hmac
    · exact unchanged (by simp [ht])
    · exact ⟨_, by rw [ht, State.faultCommand_err]⟩

/-- Setting bits of `ERR` loses none (R32 (f)). -/
theorem errKept_of_err_or {s t : State} {bits : BitVec 4} (h : t.err = s.err ||| bits) : ErrKept s t := fun n hn => by
  rw [h, BitVec.getLsbD_or, hn, Bool.true_or]

/-! ## A relation carried along a step -/

/-- `R` is kept by every named operation the step function is made of, and related states have the same valid flags. -/
structure KeptByOps (R : State → State → Prop) : Prop where
  validFlags : ∀ {s t}, R s t → t.keyValid = s.keyValid ∧ t.epochValid = s.epochValid ∧ t.candValid = s.candValid
  loadKeyByte : ∀ {s t} i b, R s t → R (s.loadKeyByte i b) (t.loadKeyByte i b)
  loadEpochByte : ∀ {s t} i b, R s t → R (s.loadEpochByte i b) (t.loadEpochByte i b)
  loadCandByte : ∀ {s t} i b, R s t → R (s.loadCandByte i b) (t.loadCandByte i b)
  clearKey : ∀ {s t}, R s t → R s.clearKey t.clearKey
  invalidateResults : ∀ {s t}, R s t → R s.invalidateResults t.invalidateResults
  raiseFault : ∀ {s t} bits, R s t → R (s.raiseFault bits) (t.raiseFault bits)
  /-- The record of a successful derivation, made with key and epoch time loaded (R58). -/
  recordCall : ∀ {s t}, R s t → s.keyValid = true → s.epochValid = true →
    R (s.recordCall { key := s.key, msg := serialize s.epoch }) (t.recordCall { key := t.key, msg := serialize t.epoch })
  putCode : ∀ {s t} c, R s t → R (s.putCode c) (t.putCode c)
  putMatch : ∀ {s t} m, R s t → R (s.putMatch m) (t.putMatch m)
  assertReset : ∀ {s t}, R s t → R s.assertReset t.assertReset
  takeEvent : ∀ {s t} rest, R s t → R { s with host := rest } { t with host := rest }

/-- What a successful COMPUTE or VALIDATE derives from the two states is the same: the code for COMPUTE, the comparison for
VALIDATE. -/
structure SameDerivation (i : Instr) (s t : State) : Prop where
  code : i = .compute → s.keyValid = true → s.epochValid = true →
    computeCode Config.hmac s.key s.epoch = computeCode Config.hmac t.key t.epoch
  comparison : i = .validate → s.keyValid = true → s.epochValid = true → s.candValid = true →
    compareCode (computeCode Config.hmac s.key s.epoch) s.cand =
      compareCode (computeCode Config.hmac t.key t.epoch) t.cand

section Related

variable {R : State → State → Prop} (hR : KeptByOps R) {s t : State}

include hR

theorem KeptByOps.computeWith (h : R s t) (hd : SameDerivation .compute s t) :
    R (s.computeWith Config.hmac) (t.computeWith Config.hmac) := by
  obtain ⟨hkv, hev, -⟩ := hR.validFlags h
  have hf : t.computeFaults = s.computeFaults := by simp only [State.computeFaults, hkv, hev]
  simp only [State.computeWith, hf]
  split
  next hz =>
    obtain ⟨hk, he⟩ := s.computeFaults_eq_zero.mp hz
    simp only [State.deriveCode_eq, ← hd.code rfl hk he]
    exact hR.putCode _ (hR.recordCall h hk he)
  next => exact hR.invalidateResults (hR.raiseFault _ h)

theorem KeptByOps.validateWith (h : R s t) (hd : SameDerivation .validate s t) :
    R (s.validateWith Config.hmac) (t.validateWith Config.hmac) := by
  obtain ⟨hkv, hev, hcv⟩ := hR.validFlags h
  have hf : t.validateFaults = s.validateFaults := by
    simp only [State.validateFaults, State.computeFaults, hkv, hev, hcv]
  simp only [State.validateWith, hf]
  split
  next hz =>
    obtain ⟨hk, he, hc⟩ := s.validateFaults_eq_zero.mp hz
    simp only [State.deriveCode_eq, ← hd.comparison rfl hk he hc]
    exact hR.putMatch _ (hR.recordCall h hk he)
  next => exact hR.invalidateResults (hR.raiseFault _ h)

/-- Related states answer related states to a command from which they derive the same. -/
theorem KeptByOps.exec (i : Instr) (h : R s t) (hd : SameDerivation i s t) :
    ∃ s' t', exec i s = .next s' ∧ exec i t = .next t' ∧ R s' t' := by
  cases i with
  | ldkey k b => exact ⟨_, _, exec_ldkey k b s, exec_ldkey k b t, hR.invalidateResults (hR.loadKeyByte k b h)⟩
  | ldepoch k b => exact ⟨_, _, exec_ldepoch k b s, exec_ldepoch k b t, hR.invalidateResults (hR.loadEpochByte k b h)⟩
  | ldcand k b => exact ⟨_, _, exec_ldcand k b s, exec_ldcand k b t, hR.invalidateResults (hR.loadCandByte k b h)⟩
  | compute => exact ⟨_, _, exec_compute s, exec_compute t, hR.computeWith h hd⟩
  | validate => exact ⟨_, _, exec_validate s, exec_validate t, hR.validateWith h hd⟩
  | clrkey => exact ⟨_, _, exec_clrkey s, exec_clrkey t, hR.invalidateResults (hR.clearKey h)⟩

/-- Related states with the same next event answer related states to it. -/
theorem KeptByOps.step {ev : HostEvent} {rest : List HostEvent} (h : R s t) (hs : s.host = ev :: rest)
    (ht : t.host = ev :: rest) (hd : ∀ w i, ev = .word w → decode w = .ok i → SameDerivation i s t) :
    ∃ s' t', step s = .next s' ∧ step t = .next t' ∧ R s' t' := by
  cases ev with
  | reset => exact ⟨_, _, step_reset s rest hs, step_reset t rest ht, hR.assertReset (hR.takeEvent rest h)⟩
  | word w =>
    match hw : decode w with
    | .error e =>
      exact ⟨_, _, step_illegal s w rest e hs hw, step_illegal t w rest e ht hw, hR.raiseFault _ (hR.takeEvent rest h)⟩
    | .ok i =>
      obtain ⟨hcode, hcmp⟩ := hd w i rfl hw
      rw [step_command s w rest i hs hw, step_command t w rest i ht hw]
      exact hR.exec i (hR.takeEvent rest h) ⟨hcode, hcmp⟩

end Related

end Sys2Proof.Proofs

/-! SUPPORT. Invariants of one state: (a) to (e) of R32, and the zero storage behind unloaded bytes (R18). -/

namespace Sys2Proof.Proofs

open Sys2Proof.Machine Sys2Proof.Claims

/-! ## The invariants of R32 -/

/-- The invariants speak of operands and results alone. -/
theorem unitInv_congr {s t : State} (ho : SameOperands s t) (hr : SameResults s t) (h : UnitInv s) : UnitInv t := by
  obtain ⟨hkey, hkm, hepoch, hem, hcand, hcm⟩ := ho
  obtain ⟨hcode, hcodev, hmatch, hmatchv⟩ := hr
  obtain ⟨hnot, hflag, hrange, hclear, hcur, hmcur⟩ := h
  constructor <;> simpa only [hkey, hkm, hepoch, hem, hcand, hcm, hcode, hcodev, hmatch, hmatchv]

/-- With the results invalid nothing is claimed of a code or of a match. -/
theorem unitInv_of_resultsInvalid {t : State} (h : ResultsInvalid t) : UnitInv t := by
  obtain ⟨hcode, hcodev, hmatch, hmatchv⟩ := h
  constructor <;> simp [hcode, hcodev, hmatch, hmatchv]

/-- The code of the present operands, shown with both masks full (R66). -/
theorem unitInv_putCode (s : State) (hk : s.keyValid = true) (he : s.epochValid = true) :
    UnitInv (s.putCode (computeCode Config.hmac s.key s.epoch)) where
  notBoth := by simp
  codeFlag := by simpa using computeCode_ne_noCode Config.hmac s.key s.epoch
  codeRange _ := Nat.le_of_lt_succ (toNat_computeCode_lt Config.hmac s.key s.epoch)
  matchClear _ := rfl
  codeCurrent _ := ⟨(keyValid_eq_true s).mp hk, (epochValid_eq_true s).mp he, rfl⟩
  matchCurrent := by simp

/-- The comparison of the present operands, shown with all masks full (R68). -/
theorem unitInv_putMatch (s : State) (hk : s.keyValid = true) (he : s.epochValid = true) (hc : s.candValid = true) :
    UnitInv (s.putMatch (compareCode (computeCode Config.hmac s.key s.epoch) s.cand)) where
  notBoth := by simp
  codeFlag := by simp [Config.noCode]
  codeRange := by simp
  matchClear := by simp
  codeCurrent := by simp
  matchCurrent _ := ⟨(keyValid_eq_true s).mp hk, (epochValid_eq_true s).mp he, (candValid_eq_true s).mp hc,
    compareCode_eq_one _ _⟩

/-- After a command the invariants of R32 hold, whatever held before it. -/
theorem unitInv_exec {i : Instr} {s t : State} (h : exec i s = .next t) : UnitInv t := by
  obtain hinv | ⟨-, hk, he, rfl⟩ | ⟨-, hk, he, hc, rfl⟩ := exec_result_cases h
  · exact unitInv_of_resultsInvalid hinv
  · exact unitInv_putCode (s.recordCall _) hk he
  · exact unitInv_putMatch (s.recordCall _) hk he hc

theorem unitInv_step {s t : State} (hs : UnitInv s) (h : step s = .next t) : UnitInv t := by
  obtain ⟨rest, -, rfl⟩ | ⟨w, rest, i, -, -, hi⟩ | ⟨w, rest, e, -, -, rfl⟩ := step_cases s t h
  · exact unitInv_of_resultsInvalid ⟨rfl, rfl, rfl, rfl⟩
  · exact unitInv_exec hi
  · exact unitInv_congr (s := s) ⟨rfl, rfl, rfl, rfl, rfl, rfl⟩ ⟨rfl, rfl, rfl, rfl⟩ hs

theorem unitInv_reset : UnitInv State.reset := unitInv_of_resultsInvalid ⟨rfl, rfl, rfl, rfl⟩

/-- Settles O29: a command leaves the invariants behind whatever came before it, a reset too, and an illegal word changes
nothing they speak of. -/
theorem stepKeepsTheInvariants : Obligations.StepKeepsTheInvariants := fun _ _ => unitInv_step

/-! ## Fault bits along a run -/

/-- No word clears a bit of `ERR` (R32 (f)). -/
theorem errKept_step_word {s t : State} {w : CmdWord} {rest : List HostEvent} (hs : s.host = .word w :: rest)
    (h : step s = .next t) : ErrKept s t := by
  match hw : decode w with
  | .ok i =>
    rw [step_command s w rest i hs hw] at h
    obtain ⟨bits, hb⟩ := exec_err_or h
    exact errKept_of_err_or hb
  | .error e =>
    rw [step_illegal s w rest e hs hw] at h
    cases h
    exact errKept_of_err_or rfl

/-- A run without a reset loses no bit of `ERR`. -/
theorem errKept_runEvents {evs : List HostEvent} {s t : State} (hev : .reset ∉ evs) (h : runEvents evs s = .next t) :
    ErrKept s t := by
  induction evs generalizing s with
  | nil => cases h; exact fun _ => id
  | cons ev evs ih =>
    rw [List.mem_cons, not_or] at hev
    obtain ⟨hhead, htail⟩ := hev
    obtain ⟨u, hu, hr⟩ := runEvents_cons_next ev evs s t h
    cases ev with
    | reset => exact absurd rfl hhead
    | word w => exact fun n hn => ih htail hr n (errKept_step_word rfl hu n hn)

/-- Settles O31: the step lemma of O29 carried along the run, and a run without a reset loses no fault bit. -/
theorem reachableStatesMeetR32 : Obligations.ReachableStatesMeetR32 := by
  refine ⟨fun evs t h => ?_, fun evs evs' t u ht hev hu => ?_⟩
  · exact runEvents_invariant UnitInv
      (fun s ev hs => unitInv_congr (s := s) ⟨rfl, rfl, rfl, rfl, rfl, rfl⟩ ⟨rfl, rfl, rfl, rfl⟩ hs)
      (fun _ _ => unitInv_step) evs _ t unitInv_reset h
  · rw [runEvents_append evs evs' _ t ht] at hu
    exact errKept_runEvents hev hu

/-! ## The storage behind unloaded bytes -/

/-- The property speaks of the operands alone. -/
theorem unloadedZero_congr {s t : State} (h : SameOperands s t) (hs : UnloadedZero s) : UnloadedZero t := by
  obtain ⟨hkey, hkm, hepoch, hem, hcand, hcm⟩ := h
  obtain ⟨hzk, hze, hzc⟩ := hs
  constructor <;> simpa only [hkey, hkm, hepoch, hem, hcand, hcm]

theorem unloadedZero_reset : UnloadedZero State.reset := by
  constructor <;> decide

/-- A mask bit that is 0 after bit `i` was set is not bit `i`, and was 0 before. -/
theorem of_getLsbD_setBit_eq_false {w : Nat} {m : BitVec w} {i j : Nat} (hi : i < w)
    (h : (setBit m i).getLsbD j = false) : j ≠ i ∧ m.getLsbD j = false := by
  simpa [getLsbD_setBit m i j hi] using h

theorem unloadedZero_loadKeyByte {s : State} (i : BitVec 4) (b : Byte) (hs : UnloadedZero s) :
    UnloadedZero (s.loadKeyByte i b) where
  key j hj := by
    obtain ⟨hne, hj⟩ := of_getLsbD_setBit_eq_false i.isLt hj
    simpa [Vector.getElem_set_ne _ _ hne.symm] using hs.key j hj
  epoch := hs.epoch
  cand := hs.cand

theorem unloadedZero_loadEpochByte {s : State} (i : BitVec 3) (b : Byte) (hs : UnloadedZero s) :
    UnloadedZero (s.loadEpochByte i b) where
  key := hs.key
  epoch j hj := by
    obtain ⟨hne, hj⟩ := of_getLsbD_setBit_eq_false i.isLt hj
    have hne : i ≠ j := fun e => hne (e ▸ rfl)
    simpa [byteAt_setByteAt_other _ _ _ b (epochLsb_add_le i) (epochLsb_apart i j hne)] using hs.epoch j hj
  cand := hs.cand

theorem unloadedZero_loadCandByte {s : State} (i : BitVec 2) (b : Byte) (hs : UnloadedZero s) :
    UnloadedZero (s.loadCandByte i b) where
  key := hs.key
  epoch := hs.epoch
  cand j hj := by
    obtain ⟨hne, hj⟩ := of_getLsbD_setBit_eq_false i.isLt hj
    have hne : i ≠ j := fun e => hne (e ▸ rfl)
    simpa [byteAt_setByteAt_other _ _ _ b (candLsb_add_le i) (candLsb_apart i j hne)] using hs.cand j hj

theorem unloadedZero_clearKey {s : State} (hs : UnloadedZero s) : UnloadedZero s.clearKey where
  key := by simp
  epoch := hs.epoch
  cand := hs.cand

theorem unloadedZero_exec {i : Instr} {s t : State} (hs : UnloadedZero s) (h : exec i s = .next t) : UnloadedZero t := by
  have invalidated {u : State} (hu : UnloadedZero u) : UnloadedZero u.invalidateResults :=
    unloadedZero_congr (s := u) ⟨rfl, rfl, rfl, rfl, rfl, rfl⟩ hu
  cases i with
  | ldkey k b => cases h; exact invalidated (unloadedZero_loadKeyByte k b hs)
  | ldepoch k b => cases h; exact invalidated (unloadedZero_loadEpochByte k b hs)
  | ldcand k b => cases h; exact invalidated (unloadedZero_loadCandByte k b hs)
  | compute => cases h; exact unloadedZero_congr (computeWith_frame _ s).1 hs
  | validate => cases h; exact unloadedZero_congr (validateWith_frame _ s).1 hs
  | clrkey => cases h; exact invalidated (unloadedZero_clearKey hs)

/-- Settles O32: only loads and CLRKEY write an operand, a load marks the byte it writes as loaded, and CLRKEY writes
0x00. -/
theorem stepKeepsUnloadedStorageZero : Obligations.StepKeepsUnloadedStorageZero := by
  intro s t hs h
  obtain ⟨rest, -, rfl⟩ | ⟨w, rest, i, -, -, hi⟩ | ⟨w, rest, e, -, -, rfl⟩ := step_cases s t h
  · exact unloadedZero_congr (s := State.reset) ⟨rfl, rfl, rfl, rfl, rfl, rfl⟩ unloadedZero_reset
  · have hs' : UnloadedZero { s with host := rest } := unloadedZero_congr (s := s) ⟨rfl, rfl, rfl, rfl, rfl, rfl⟩ hs
    exact unloadedZero_exec hs' hi
  · exact unloadedZero_congr (s := s) ⟨rfl, rfl, rfl, rfl, rfl, rfl⟩ hs

/-- Settles O30: the results are invalid at reset, and all storage is zero. -/
theorem resetMeetsTheInvariants : Obligations.ResetMeetsTheInvariants := ⟨unitInv_reset, unloadedZero_reset⟩

end Sys2Proof.Proofs

/-! SUPPORT. Bytes: a value is determined by its bytes, the bytes of the operands by weight (R34), and the wide ports
(R27). -/

namespace Sys2Proof.Proofs

open Sys2Proof.Machine Sys2Proof.Claims

theorem toNat_byteAt {w : Nat} (v : BitVec w) (lo : Nat) : (byteAt v lo).toNat = v.toNat / 2 ^ lo % 256 := by
  rw [byteAt, BitVec.extractLsb'_toNat, Nat.shiftRight_eq_div_pow]

/-- Two values with the same bytes at every multiple of 8 are the same value. -/
theorem eq_of_byteAt_eq {w : Nat} (v v' : BitVec w) (h : ∀ k, 8 * k < w → byteAt v (8 * k) = byteAt v' (8 * k)) :
    v = v' := by
  apply BitVec.eq_of_getLsbD_eq
  intro n hn
  have hbit := congrArg (fun b : Byte => b.getLsbD (n % 8)) (h (n / 8) (by omega))
  simpa only [getLsbD_byteAt, Nat.mod_lt n (show 8 > 0 by decide), decide_true, Bool.true_and, Nat.div_add_mod] using hbit

/-- Byte `i` of `EPOCH` lies `7 - i` bytes above the lowest. -/
theorem epochLsb_eq (i : BitVec 3) : epochLsb i = 8 * (7 - i.toNat) := by
  unfold epochLsb
  omega

/-- Byte `i` of `CAND` lies `3 - i` bytes above the lowest. -/
theorem candLsb_eq (i : BitVec 2) : candLsb i = 8 * (3 - i.toNat) := by
  unfold candLsb
  omega

/-- The bytes of an epoch time determine it. -/
theorem epoch_eq_of_bytes {v v' : BitVec 64} (h : ∀ i, byteAt v (epochLsb i) = byteAt v' (epochLsb i)) : v = v' := by
  refine eq_of_byteAt_eq v v' fun k hk => ?_
  have hi : epochLsb (BitVec.ofNat 3 (7 - k)) = 8 * k := by
    rw [epochLsb_eq, BitVec.toNat_ofNat]
    omega
  exact hi ▸ h _

/-- The bytes of a candidate determine it. -/
theorem cand_eq_of_bytes {v v' : BitVec 32} (h : ∀ i, byteAt v (candLsb i) = byteAt v' (candLsb i)) : v = v' := by
  refine eq_of_byteAt_eq v v' fun k hk => ?_
  have hi : candLsb (BitVec.ofNat 2 (3 - k)) = 8 * k := by
    rw [candLsb_eq, BitVec.toNat_ofNat]
    omega
  exact hi ▸ h _

/-- Settles O21: the byte above `k` bytes has weight `256 ^ k`, and the bytes cover every bit. -/
theorem operandBytesAreBigEndian : Obligations.OperandBytesAreBigEndian := by
  refine ⟨fun v i => ?_, fun v i => ?_, fun _ _ => epoch_eq_of_bytes, fun _ _ => cand_eq_of_bytes⟩
  · rw [toNat_byteAt, epochLsb_eq, Nat.pow_mul]
  · rw [toNat_byteAt, candLsb_eq, Nat.pow_mul]

/-! ## The wide ports -/

/-- The byte pushed in at the low end is the lowest byte. -/
theorem byteAt_push_zero {w : Nat} (acc : BitVec w) (b : Byte) (hw : 8 ≤ w) :
    byteAt (acc <<< 8 ||| b.setWidth w) 0 = b := by
  apply BitVec.eq_of_getLsbD_eq
  intro n hn
  rw [getLsbD_byteAt]
  simp [hn, show n < w by omega]

/-- Pushing a byte in at the low end moves every other byte up by one. -/
theorem byteAt_push_succ {w : Nat} (acc : BitVec w) (b : Byte) (k : Nat) (hw : 8 * (k + 1) + 8 ≤ w) :
    byteAt (acc <<< 8 ||| b.setWidth w) (8 * (k + 1)) = byteAt acc (8 * k) := by
  apply BitVec.eq_of_getLsbD_eq
  intro n hn
  have hb : b.getLsbD (8 * (k + 1) + n) = false := BitVec.getLsbD_of_ge _ _ (by omega)
  have hsub : 8 * (k + 1) + n - 8 = 8 * k + n := by omega
  rw [getLsbD_byteAt, getLsbD_byteAt]
  simp [hn, hb, hsub, show 8 * k + n < w by omega, show 8 * (k + 1) + n < w by omega,
    show ¬ 8 * (k + 1) + n < 8 by omega]

/-- A list of bytes pushed in one after the other: the last one is at the bottom. -/
theorem byteAt_foldl_push {w : Nat} (bs : List Byte) (hw : 8 * bs.length ≤ w) (i : Nat) (hi : i < bs.length) :
    byteAt (bs.foldl (fun acc b => acc <<< 8 ||| b.setWidth w) (0 : BitVec w)) (8 * (bs.length - 1 - i)) = bs[i] := by
  induction bs using List.reverseRecOn with
  | nil => cases hi
  | append_singleton bs b ih =>
    rw [List.length_append, List.length_singleton] at hw hi
    rw [List.foldl_append, List.foldl_cons, List.foldl_nil]
    by_cases hlast : i = bs.length
    · subst hlast
      simpa using byteAt_push_zero _ b (by omega)
    · have hlo : (bs ++ [b]).length - 1 - i = bs.length - 1 - i + 1 := by
        rw [List.length_append, List.length_singleton]
        omega
      rw [hlo, byteAt_push_succ _ b _ (by omega), ih (by omega) (by omega), List.getElem_append_left]

/-- Byte `i` of a byte sequence on a wide port, byte 0 on the most significant bits (R27). -/
theorem byteAt_packBE {n : Nat} (bs : Vector Byte n) (i : Nat) (hi : i < n) :
    byteAt (packBE bs) (8 * (n - 1 - i)) = bs[i] := by
  have h := byteAt_foldl_push (w := 8 * n) bs.toList (by simp) i (by simpa using hi)
  simpa only [packBE, Vector.length_toList, Vector.getElem_toList] using h

/-- Settles O44: the three ports are big-endian packings of their bytes. -/
theorem widePortsPutByteZeroOnTop : Obligations.WidePortsPutByteZeroOnTop := by
  refine ⟨fun s i => ?_, fun s i => ?_, fun v i => ?_⟩
  · rw [show 120 - 8 * i.toNat = 8 * (16 - 1 - i.toNat) by omega]
    exact byteAt_packBE s.key i.toNat i.isLt
  · rw [show 56 - 8 * i.toNat = 8 * (8 - 1 - i.toNat) by omega]
    exact byteAt_packBE (serialize s.epoch) i.toNat i.isLt
  · rw [show 152 - 8 * i.val = 8 * (20 - 1 - i.val) by omega]
    exact getElem_bytesBE 20 v i.val i.isLt

end Sys2Proof.Proofs

/-! SUPPORT. Two states side by side: the same view through optional bytes (R18), the same but for the key (R13), the same
registers (R10). -/

namespace Sys2Proof.Proofs

open Sys2Proof.Machine Sys2Proof.Claims

/-! ## Optional bytes: what a state shows of its operands (R18) -/

/-- An optional byte after its own load is the byte loaded, another is as it was. -/
theorem keyByte?_loadKeyByte (s : State) (i j : BitVec 4) (b : Byte) :
    (s.loadKeyByte i b).keyByte? j = if j = i then some b else s.keyByte? j := by
  by_cases h : j = i
  · simp [State.keyByte?, getLsbD_setBit s.kmask _ _ i.isLt, h]
  · have hne : j.toNat ≠ i.toNat := fun e => h (BitVec.eq_of_toNat_eq e)
    simp [State.keyByte?, getLsbD_setBit s.kmask _ _ i.isLt, h, hne, Vector.getElem_set_ne _ _ hne.symm]

theorem epochByte?_loadEpochByte (s : State) (i j : BitVec 3) (b : Byte) :
    (s.loadEpochByte i b).epochByte? j = if j = i then some b else s.epochByte? j := by
  by_cases h : j = i
  · simp [State.epochByte?, getLsbD_setBit s.emask _ _ i.isLt, h, byteAt_setByteAt_same _ _ b (epochLsb_add_le i)]
  · have hne : j.toNat ≠ i.toNat := fun e => h (BitVec.eq_of_toNat_eq e)
    simp [State.epochByte?, getLsbD_setBit s.emask _ _ i.isLt, h, hne,
      byteAt_setByteAt_other _ _ _ b (epochLsb_add_le i) (epochLsb_apart i j (Ne.symm h))]

theorem candByte?_loadCandByte (s : State) (i j : BitVec 2) (b : Byte) :
    (s.loadCandByte i b).candByte? j = if j = i then some b else s.candByte? j := by
  by_cases h : j = i
  · simp [State.candByte?, getLsbD_setBit s.cmask _ _ i.isLt, h, byteAt_setByteAt_same _ _ b (candLsb_add_le i)]
  · have hne : j.toNat ≠ i.toNat := fun e => h (BitVec.eq_of_toNat_eq e)
    simp [State.candByte?, getLsbD_setBit s.cmask _ _ i.isLt, h, hne,
      byteAt_setByteAt_other _ _ _ b (candLsb_add_le i) (candLsb_apart i j (Ne.symm h))]

theorem keyByte?_clearKey (s : State) (j : BitVec 4) : s.clearKey.keyByte? j = none := by simp [State.keyByte?]

/-- Two masks of `2 ^ k` bits are equal when each bit is, the bit numbers taken as `k`-bit values. -/
theorem mask_ext {k : Nat} {m m' : BitVec (2 ^ k)} (h : ∀ i : BitVec k, m.getLsbD i.toNat = m'.getLsbD i.toNat) :
    m = m' := by
  apply BitVec.eq_of_getLsbD_eq
  intro n hn
  simpa [Nat.mod_eq_of_lt hn] using h (BitVec.ofNat k n)

/-- The optional bytes determine the masks. -/
theorem masks_eq_of_sameView {s t : State} (h : SameView s t) :
    t.kmask = s.kmask ∧ t.emask = s.emask ∧ t.cmask = s.cmask := by
  obtain ⟨hk, he, hc, -⟩ := h
  refine ⟨mask_ext (k := 4) fun i => ?_, mask_ext (k := 3) fun i => ?_, mask_ext (k := 2) fun i => ?_⟩
  · simpa [State.keyByte?, apply_ite] using congrArg Option.isSome (hk i)
  · simpa [State.epochByte?, apply_ite] using congrArg Option.isSome (he i)
  · simpa [State.candByte?, apply_ite] using congrArg Option.isSome (hc i)

/-- With the key loaded the optional bytes are the key. -/
theorem key_eq_of_sameView {s t : State} (h : SameView s t) (hv : s.keyValid = true) : t.key = s.key := by
  obtain ⟨hkm, -, -⟩ := masks_eq_of_sameView h
  obtain ⟨hk, -⟩ := h
  apply Vector.ext
  intro n hn
  have hbit : s.kmask.getLsbD n = true := by
    simpa [Nat.mod_eq_of_lt hn] using s.keyValid_iff.mp hv (BitVec.ofNat 4 n)
  simpa [State.keyByte?, hkm, hbit, Nat.mod_eq_of_lt hn] using hk (BitVec.ofNat 4 n)

/-- With the epoch time loaded the optional bytes are the epoch time. -/
theorem epoch_eq_of_sameView {s t : State} (h : SameView s t) (hv : s.epochValid = true) : t.epoch = s.epoch := by
  obtain ⟨-, hem, -⟩ := masks_eq_of_sameView h
  obtain ⟨-, he, -⟩ := h
  refine epoch_eq_of_bytes fun i => ?_
  simpa [State.epochByte?, hem, s.epochValid_iff.mp hv i] using he i

/-- With the candidate loaded the optional bytes are the candidate. -/
theorem cand_eq_of_sameView {s t : State} (h : SameView s t) (hv : s.candValid = true) : t.cand = s.cand := by
  obtain ⟨-, -, hcm⟩ := masks_eq_of_sameView h
  obtain ⟨-, -, hc, -⟩ := h
  refine cand_eq_of_bytes fun i => ?_
  simpa [State.candByte?, hcm, s.candValid_iff.mp hv i] using hc i

/-- States with the same view derive the same: what a successful command reads is loaded. -/
theorem sameDerivation_of_sameView {s t : State} (h : SameView s t) (i : Instr) : SameDerivation i s t where
  code _ hk he := by rw [key_eq_of_sameView h hk, epoch_eq_of_sameView h he]
  comparison _ hk he hc := by rw [key_eq_of_sameView h hk, epoch_eq_of_sameView h he, cand_eq_of_sameView h hc]

/-- Every operation keeps the view, since a load marks the byte it writes and the engine reads loaded bytes only. -/
theorem sameView_keptByOps : KeptByOps SameView where
  validFlags h := by
    obtain ⟨hk, he, hc⟩ := masks_eq_of_sameView h
    exact validFlags_congr hk he hc
  loadKeyByte i b := by
    rintro ⟨hk, he, hc, hr, herr, hout⟩
    exact ⟨fun j => by simp only [keyByte?_loadKeyByte, hk], he, hc, hr, herr, hout⟩
  loadEpochByte i b := by
    rintro ⟨hk, he, hc, hr, herr, hout⟩
    exact ⟨hk, fun j => by simp only [epochByte?_loadEpochByte, he], hc, hr, herr, hout⟩
  loadCandByte i b := by
    rintro ⟨hk, he, hc, hr, herr, hout⟩
    exact ⟨hk, he, fun j => by simp only [candByte?_loadCandByte, hc], hr, herr, hout⟩
  clearKey := by
    rintro s t ⟨-, he, hc, hr, herr, hout⟩
    exact ⟨fun j => by simp only [keyByte?_clearKey], he, hc, hr, herr, hout⟩
  invalidateResults := by
    rintro s t ⟨hk, he, hc, -, herr, hout⟩
    exact ⟨hk, he, hc, ⟨rfl, rfl, rfl, rfl⟩, herr, hout⟩
  raiseFault bits := by
    rintro ⟨hk, he, hc, hr, herr, hout⟩
    exact ⟨hk, he, hc, hr, congrArg (· ||| bits) herr, hout⟩
  recordCall h hkv hev := by
    have hkey := key_eq_of_sameView h hkv
    have hepoch := epoch_eq_of_sameView h hev
    obtain ⟨hk, he, hc, hr, herr, hhost, hcalls⟩ := h
    exact ⟨hk, he, hc, hr, herr, hhost, by simp [hcalls, hkey, hepoch]⟩
  putCode c := by
    rintro ⟨hk, he, hc, -, herr, hout⟩
    exact ⟨hk, he, hc, ⟨rfl, rfl, rfl, rfl⟩, herr, hout⟩
  putMatch m := by
    rintro ⟨hk, he, hc, -, herr, hout⟩
    exact ⟨hk, he, hc, ⟨rfl, rfl, rfl, rfl⟩, herr, hout⟩
  assertReset := by
    rintro s t ⟨-, -, -, -, -, hout⟩
    exact ⟨fun _ => rfl, fun _ => rfl, fun _ => rfl, ⟨rfl, rfl, rfl, rfl⟩, rfl, hout⟩
  takeEvent rest := by
    rintro ⟨hk, he, hc, hr, herr, -, hcalls⟩
    exact ⟨hk, he, hc, hr, herr, rfl, hcalls⟩

theorem ports_eq_of_sameView {s t : State} (h : SameView s t) : s.ports = t.ports := by
  obtain ⟨hkm, hem, hcm⟩ := masks_eq_of_sameView h
  obtain ⟨-, -, -, hr, herr, -⟩ := h
  exact ports_congr hkm hem hcm hr herr

/-- Settles O33: the view is kept by every operation, and it determines the ports. -/
theorem unloadedBytesAreNeverRead : Obligations.UnloadedBytesAreNeverRead := by
  refine fun s1 s2 h => ⟨ports_eq_of_sameView h, fun t1 ht1 => ?_⟩
  have ⟨_, _, _, _, _, hhost, _⟩ := h
  match hev : s1.host with
  | [] => simp [step_end s1 hev] at ht1
  | ev :: rest =>
    obtain ⟨u1, t2, hu1, ht2, hview⟩ :=
      sameView_keptByOps.step h hev (hhost.trans hev) fun _ i _ _ => sameDerivation_of_sameView h i
    obtain rfl : t1 = u1 := by simpa [ht1] using hu1
    exact ⟨t2, ht2, hview, ports_eq_of_sameView hview⟩

/-! ## The key (R13) -/

/-- Every operation writes the key bytes of both states alike or leaves them, and none copies them to another register. -/
theorem sameButKey_keptByOps : KeptByOps SameButKey where
  validFlags := by
    rintro s t ⟨hkm, -, hem, -, hcm, -⟩
    exact validFlags_congr hkm hem hcm
  loadKeyByte i b := by
    rintro ⟨hkm, hrest⟩
    exact ⟨congrArg (setBit · i.toNat) hkm, hrest⟩
  loadEpochByte i b := by
    rintro ⟨hkm, hepoch, hem, hrest⟩
    exact ⟨hkm, congrArg (setByteAt · (epochLsb i) b) hepoch, congrArg (setBit · i.toNat) hem, hrest⟩
  loadCandByte i b := by
    rintro ⟨hkm, hepoch, hem, hcand, hcm, hrest⟩
    exact ⟨hkm, hepoch, hem, congrArg (setByteAt · (candLsb i) b) hcand, congrArg (setBit · i.toNat) hcm, hrest⟩
  clearKey := by
    rintro s t ⟨-, hrest⟩
    exact ⟨rfl, hrest⟩
  invalidateResults := by
    rintro s t ⟨hkm, hepoch, hem, hcand, hcm, -, hrest⟩
    exact ⟨hkm, hepoch, hem, hcand, hcm, ⟨rfl, rfl, rfl, rfl⟩, hrest⟩
  raiseFault bits := by
    rintro ⟨hkm, hepoch, hem, hcand, hcm, hr, herr, hhost⟩
    exact ⟨hkm, hepoch, hem, hcand, hcm, hr, congrArg (· ||| bits) herr, hhost⟩
  recordCall h _ _ := h
  putCode c := by
    rintro ⟨hkm, hepoch, hem, hcand, hcm, -, hrest⟩
    exact ⟨hkm, hepoch, hem, hcand, hcm, ⟨rfl, rfl, rfl, rfl⟩, hrest⟩
  putMatch m := by
    rintro ⟨hkm, hepoch, hem, hcand, hcm, -, hrest⟩
    exact ⟨hkm, hepoch, hem, hcand, hcm, ⟨rfl, rfl, rfl, rfl⟩, hrest⟩
  assertReset := by
    rintro s t ⟨-, -, -, -, -, -, -, hhost⟩
    exact ⟨rfl, rfl, rfl, rfl, rfl, ⟨rfl, rfl, rfl, rfl⟩, rfl, hhost⟩
  takeEvent rest := by
    rintro ⟨hkm, hepoch, hem, hcand, hcm, hr, herr, -⟩
    exact ⟨hkm, hepoch, hem, hcand, hcm, hr, herr, rfl⟩

theorem ports_eq_of_sameButKey {s t : State} (h : SameButKey s t) : s.ports = t.ports := by
  obtain ⟨hkm, -, hem, -, hcm, hr, herr, -⟩ := h
  exact ports_congr hkm hem hcm hr herr

/-- Settles O34: the words of COMPUTE and VALIDATE are the only ones whose operations read the key, through the code and
the comparison. -/
theorem keyReachesPortsOnlyThroughCodeAndMatch : Obligations.KeyReachesPortsOnlyThroughCodeAndMatch := by
  intro s1 s2 ev rest h hev hcode hcmp
  have ⟨_, _, _, _, _, _, _, hhost⟩ := h
  have hd (w : CmdWord) (i : Instr) (hw : ev = .word w) (hi : decode w = .ok i) : SameDerivation i s1 s2 := by
    refine ⟨fun hc _ _ => hcode ?_, fun hv _ _ _ => hcmp ?_⟩
    · rw [hw, (decode_eq_compute w).mp (hc ▸ hi)]
    · rw [hw, (decode_eq_validate w).mp (hv ▸ hi)]
  obtain ⟨t1, t2, ht1, ht2, hkey⟩ := sameButKey_keptByOps.step h hev (hhost.trans hev) hd
  exact ⟨t1, t2, ht1, ht2, hkey, ports_eq_of_sameButKey hkey⟩

/-! ## The registers (R10) -/

theorem sameRegisters_keptByOps : KeptByOps SameRegisters where
  validFlags := by
    rintro s t ⟨⟨-, hkm, -, hem, -, hcm⟩, -⟩
    exact validFlags_congr hkm hem hcm
  loadKeyByte i b := by
    rintro ⟨⟨hkey, hkm, hops⟩, hrest⟩
    exact ⟨⟨congrArg (·.set i.toNat b) hkey, congrArg (setBit · i.toNat) hkm, hops⟩, hrest⟩
  loadEpochByte i b := by
    rintro ⟨⟨hkey, hkm, hepoch, hem, hops⟩, hrest⟩
    exact ⟨⟨hkey, hkm, congrArg (setByteAt · (epochLsb i) b) hepoch, congrArg (setBit · i.toNat) hem, hops⟩, hrest⟩
  loadCandByte i b := by
    rintro ⟨⟨hkey, hkm, hepoch, hem, hcand, hcm⟩, hrest⟩
    exact ⟨⟨hkey, hkm, hepoch, hem, congrArg (setByteAt · (candLsb i) b) hcand, congrArg (setBit · i.toNat) hcm⟩, hrest⟩
  clearKey := by
    rintro s t ⟨⟨-, -, hops⟩, hrest⟩
    exact ⟨⟨rfl, rfl, hops⟩, hrest⟩
  invalidateResults := by
    rintro s t ⟨hops, -, herr⟩
    exact ⟨hops, ⟨rfl, rfl, rfl, rfl⟩, herr⟩
  raiseFault bits := by
    rintro ⟨hops, hr, herr⟩
    exact ⟨hops, hr, congrArg (· ||| bits) herr⟩
  recordCall h _ _ := h
  putCode c := by
    rintro ⟨hops, -, herr⟩
    exact ⟨hops, ⟨rfl, rfl, rfl, rfl⟩, herr⟩
  putMatch m := by
    rintro ⟨hops, -, herr⟩
    exact ⟨hops, ⟨rfl, rfl, rfl, rfl⟩, herr⟩
  assertReset _ := ⟨⟨rfl, rfl, rfl, rfl, rfl, rfl⟩, ⟨rfl, rfl, rfl, rfl⟩, rfl⟩
  takeEvent _ h := h

/-- Settles O42: every operation of a command writes registers from registers. -/
theorem registersDependOnRegistersAlone : Obligations.RegistersDependOnRegistersAlone := by
  intro i s1 s2 t1 h ht1
  have hd : SameDerivation i s1 s2 := by
    obtain ⟨⟨hkey, -, hepoch, -, hcand, -⟩, -⟩ := h
    exact ⟨fun _ _ _ => by rw [hkey, hepoch], fun _ _ _ _ => by rw [hkey, hepoch, hcand]⟩
  obtain ⟨u1, t2, hu1, ht2, hregs⟩ := sameRegisters_keptByOps.exec i h hd
  obtain rfl : t1 = u1 := by simpa [ht1] using hu1
  exact ⟨t2, ht2, hregs⟩

end Sys2Proof.Proofs

/-! SUPPORT. Single steps and commands: events taken, operands left alone, results invalidated; the reset values and the
ports. -/

namespace Sys2Proof.Proofs

open Sys2Proof.Machine Sys2Proof.Claims

/-- Settles O4: by the equation of a step on each kind of event. -/
theorem everyEventIsTaken : Obligations.EveryEventIsTaken := by
  refine ⟨fun s ev rest hs => ?_, fun s => step_end s, exec_next⟩
  cases ev with
  | reset => exact ⟨_, step_reset s rest hs, rfl⟩
  | word w =>
    match hw : decode w with
    | .ok i => exact step_command s w rest i hs hw ▸ exec_next i _
    | .error e => exact ⟨_, step_illegal s w rest e hs hw, rfl⟩

/-- A load writes its own operand and CLRKEY the key; every other operand keeps its value and its mask (R19). -/
theorem exec_operand_frame {i : Instr} {s t : State} (h : exec i s = .next t) :
    ((∀ k b, i ≠ .ldkey k b) → i ≠ .clrkey → t.key = s.key ∧ t.kmask = s.kmask) ∧
    ((∀ k b, i ≠ .ldepoch k b) → t.epoch = s.epoch ∧ t.emask = s.emask) ∧
    ((∀ k b, i ≠ .ldcand k b) → t.cand = s.cand ∧ t.cmask = s.cmask) := by
  cases i with
  | ldkey k b => cases h; exact ⟨fun hne => absurd rfl (hne k b), fun _ => ⟨rfl, rfl⟩, fun _ => ⟨rfl, rfl⟩⟩
  | ldepoch k b => cases h; exact ⟨fun _ _ => ⟨rfl, rfl⟩, fun hne => absurd rfl (hne k b), fun _ => ⟨rfl, rfl⟩⟩
  | ldcand k b => cases h; exact ⟨fun _ _ => ⟨rfl, rfl⟩, fun _ => ⟨rfl, rfl⟩, fun hne => absurd rfl (hne k b)⟩
  | clrkey => cases h; exact ⟨fun _ hne => absurd rfl hne, fun _ => ⟨rfl, rfl⟩, fun _ => ⟨rfl, rfl⟩⟩
  | compute =>
    cases h
    obtain ⟨⟨hkey, hkm, hepoch, hem, hcand, hcm⟩, -⟩ := computeWith_frame Config.hmac s
    exact ⟨fun _ _ => ⟨hkey, hkm⟩, fun _ => ⟨hepoch, hem⟩, fun _ => ⟨hcand, hcm⟩⟩
  | validate =>
    cases h
    obtain ⟨⟨hkey, hkm, hepoch, hem, hcand, hcm⟩, -⟩ := validateWith_frame Config.hmac s
    exact ⟨fun _ _ => ⟨hkey, hkm⟩, fun _ => ⟨hepoch, hem⟩, fun _ => ⟨hcand, hcm⟩⟩

/-- Settles O36: by the operand frame of a command, the results of COMPUTE and VALIDATE as functions of the operands, and
the illegal word, which writes `ERR` alone. -/
theorem operandsChangeOnlyByTheirCommands : Obligations.OperandsChangeOnlyByTheirCommands := by
  refine ⟨fun i s t => exec_operand_frame, fun i s1 s2 t1 t2 hi ho h1 h2 => ?_, fun s w rest e t hs hw h => ?_⟩
  · obtain rfl | rfl := hi
    · cases h1; cases h2; exact computeWith_sameResults _ ho
    · cases h1; cases h2; exact validateWith_sameResults _ ho
  · rw [step_illegal s w rest e hs hw] at h
    cases h
    exact ⟨rfl, rfl, rfl, rfl, rfl, rfl⟩

/-- Settles O37: by the cases of what a command makes of the results. -/
theorem resultsAreInvalidatedWhereR24Says : Obligations.ResultsAreInvalidatedWhereR24Says := by
  refine ⟨fun i s t h hc hv => ?_, fun s t h hmiss => ?_, fun s t h hmiss => ?_, fun s rest t hs h => ?_,
    fun s w rest e t hs hw h => ?_⟩
  · obtain hinv | ⟨hi, -⟩ | ⟨hi, -⟩ := exec_result_cases h
    · exact hinv
    · exact absurd hi hc
    · exact absurd hi hv
  · obtain hinv | ⟨-, hk, he, -⟩ | ⟨hi, -⟩ := exec_result_cases h
    · exact hinv
    · exact absurd ⟨s.keyValid_iff.mp hk, s.epochValid_iff.mp he⟩ hmiss
    · cases hi
  · obtain hinv | ⟨hi, -⟩ | ⟨-, hk, he, hc, -⟩ := exec_result_cases h
    · exact hinv
    · cases hi
    · exact absurd ⟨s.keyValid_iff.mp hk, s.epochValid_iff.mp he, s.candValid_iff.mp hc⟩ hmiss
  · rw [step_reset s rest hs] at h
    cases h
    exact ⟨rfl, rfl, rfl, rfl⟩
  · rw [step_illegal s w rest e hs hw] at h
    cases h
    exact ⟨rfl, rfl, rfl, rfl⟩

/-- Settles O1: the reset state is a literal. -/
theorem resetLeavesTheStatedValues : Obligations.ResetLeavesTheStatedValues := by
  unfold Obligations.ResetLeavesTheStatedValues
  decide

/-- A table word that decodes has decoded as a command word. -/
theorem decode_tableWord {nbits w : Nat} {i : Instr} (h : decodeTableWord nbits w = some i) :
    decode (tableWord nbits w) = .ok i := by
  unfold decodeTableWord at h
  split_ifs at h
  split at h
  · cases h; assumption
  · cases h

/-- Settles O3: a word placed by `withFetchWord` is the host's next event. -/
theorem stepRunsTheDecodedCommand : Obligations.StepRunsTheDecodedCommand := by
  refine ⟨fun s w rest i hs hi => step_command s w rest i hs hi, fun s nbits w i h => ?_⟩
  exact step_command (s.withFetchWord nbits w) (tableWord nbits w) s.host i rfl (decode_tableWord h)

/-- Settles O43: the flags of the operands are comparisons of a mask with the full one. -/
theorem portsShowTheRegisters : Obligations.PortsShowTheRegisters := fun _ =>
  ⟨rfl, rfl, rfl, rfl, ofBool_beq_eq_ite _ _, ofBool_beq_eq_ite _ _, ofBool_beq_eq_ite _ _, rfl⟩

end Sys2Proof.Proofs

/-! SUPPORT. The slice of a digest (R36, R59, R60), and commands issued twice in a row (R38). -/

namespace Sys2Proof.Proofs

open Sys2Proof.Machine Sys2Proof.Claims

/-! ## The slice of a digest -/

/-- The offset is the low nibble of byte 19 as a number (R59). -/
theorem toNat_truncOffset (d : Vector Byte 20) : (truncOffset d).toNat = d[19].toNat % 16 := by
  have hmask : Config.offsetMask.toNat = 2 ^ 4 - 1 := rfl
  rw [truncOffset, BitVec.toNat_setWidth, BitVec.toNat_and, hmask, Nat.and_two_pow_sub_one_eq_mod, Nat.mod_mod]

/-- The raw bits are the four bytes from the offset on (R60), the offset given by its number. -/
theorem rawBits_of_offset {d : Vector Byte 20} {o : Nat} (h : (truncOffset d).toNat = o) (ho : o < 16) :
    rawBits d = be32 d[o] d[o + 1] d[o + 2] d[o + 3] := by
  subst h
  rfl

/-- Settles O17: the offset is below 16, so the four bytes from it on end at byte 18. -/
theorem sliceNeverIncludesTheLastByte : Obligations.SliceNeverIncludesTheLastByte := by
  intro d d' hbytes hnibble
  have hbyte (k : Nat) (hk : k < 19) : d[k] = d'[k] := hbytes ⟨k, hk⟩
  have ho : d'[19].toNat % 16 < 16 := Nat.mod_lt _ (by decide)
  have hraw : rawBits d = rawBits d' := by
    rw [rawBits_of_offset ((toNat_truncOffset d).trans hnibble) ho, rawBits_of_offset (toNat_truncOffset d') ho,
      hbyte _ (by omega), hbyte _ (by omega), hbyte _ (by omega), hbyte _ (by omega)]
  simp only [extract, truncated, hraw]

/-! ## A load issued twice -/

/-- No command reads the results (R19). -/
theorem exec_invalidateResults (i : Instr) (s : State) : exec i s.invalidateResults = exec i s := by
  cases i <;> rfl

theorem loadKeyByte_loadKeyByte_same (s : State) (i : BitVec 4) (b : Byte) :
    (s.loadKeyByte i b).loadKeyByte i b = s.loadKeyByte i b := by
  simp [State.loadKeyByte, setBit_setBit_same]

theorem loadEpochByte_loadEpochByte_same (s : State) (i : BitVec 3) (b : Byte) :
    (s.loadEpochByte i b).loadEpochByte i b = s.loadEpochByte i b := by
  simp [State.loadEpochByte, setBit_setBit_same, setByteAt_setByteAt_same _ _ b b (epochLsb_add_le i)]

theorem loadCandByte_loadCandByte_same (s : State) (i : BitVec 2) (b : Byte) :
    (s.loadCandByte i b).loadCandByte i b = s.loadCandByte i b := by
  simp [State.loadCandByte, setBit_setBit_same, setByteAt_setByteAt_same _ _ b b (candLsb_add_le i)]

/-! ## COMPUTE and VALIDATE issued twice -/

/-- The faults of COMPUTE and of VALIDATE are functions of the masks (R66, R68). -/
theorem faults_congr {s t : State} (h : SameOperands s t) :
    t.computeFaults = s.computeFaults ∧ t.validateFaults = s.validateFaults := by
  obtain ⟨-, hkm, -, hem, -, hcm⟩ := h
  obtain ⟨hkv, hev, hcv⟩ := validFlags_congr hkm hem hcm
  simp only [State.validateFaults, State.computeFaults, hkv, hev, hcv, and_self]

/-- The invocations a command with these faults makes: one with the present key and message, or none (R43, R79). -/
def invocations (faults : BitVec 4) (s : State) : List HmacCall :=
  if faults = 0 then [{ key := s.key, msg := serialize s.epoch }] else []

/-- The effect COMPUTE and VALIDATE have in common: `f` keeps the operands, makes its results from them alone, raises
`faults` and makes the invocations these allow. -/
structure DerivesFromOperands (f : State → State) (faults : State → BitVec 4) : Prop where
  operands : ∀ s, SameOperands s (f s)
  results : ∀ {s t}, SameOperands s t → SameResults (f s) (f t)
  faults_congr : ∀ {s t}, SameOperands s t → faults t = faults s
  err : ∀ s, (f s).err = s.err ||| faults s
  calls : ∀ s, (f s).calls = s.calls ++ invocations (faults s) s

theorem computeWith_derivesFromOperands (hmac : HmacFn) :
    DerivesFromOperands (State.computeWith hmac) State.computeFaults where
  operands s := (computeWith_frame hmac s).1
  results := computeWith_sameResults hmac
  faults_congr h := (faults_congr h).1
  err s := by
    unfold State.computeWith
    split
    next hz => simp [hz]
    next => rfl
  calls s := by
    unfold State.computeWith invocations
    split
    next => rfl
    next => simp

theorem validateWith_derivesFromOperands (hmac : HmacFn) :
    DerivesFromOperands (State.validateWith hmac) State.validateFaults where
  operands s := (validateWith_frame hmac s).1
  results := validateWith_sameResults hmac
  faults_congr h := (faults_congr h).2
  err s := by
    unfold State.validateWith
    split
    next hz => simp [hz]
    next => rfl
  calls s := by
    unfold State.validateWith invocations
    split
    next => rfl
    next => simp

section Twice

variable {f : State → State} {faults : State → BitVec 4} (hf : DerivesFromOperands f faults)

include hf

/-- The second time the operands are those of the first, and the faults it raises are raised already. -/
theorem DerivesFromOperands.sameRegisters_twice (s : State) : SameRegisters (f s) (f (f s)) := by
  have hops := hf.operands s
  refine ⟨hf.operands (f s), hf.results hops, ?_⟩
  rw [hf.err (f s), hf.faults_congr hops, hf.err s, BitVec.or_assoc, BitVec.or_self]

theorem DerivesFromOperands.invocations_twice (s : State) :
    invocations (faults (f s)) (f s) = invocations (faults s) s := by
  have hops := hf.operands s
  rw [hf.faults_congr hops]
  obtain ⟨hkey, -, hepoch, -⟩ := hops
  simp only [invocations, hkey, hepoch]

/-- The second time makes the invocations of the first. -/
theorem DerivesFromOperands.calls_twice (s : State) {cs : List HmacCall} (h : (f s).calls = s.calls ++ cs) :
    (f (f s)).calls = (f s).calls ++ cs := by
  have hcs : invocations (faults s) s = cs := List.append_cancel_left ((hf.calls s).symm.trans h)
  rw [hf.calls (f s), hf.invocations_twice s, hcs]

end Twice

/-- Settles O27: a load writes the same byte and mask bit again; COMPUTE and VALIDATE find the operands as they left
them. -/
theorem repeatedCommandsLeaveTheSameState : Obligations.RepeatedCommandsLeaveTheSameState := by
  refine ⟨fun i s t hi h => ?_, fun i s t hi h => ?_⟩
  · obtain ⟨k, b, rfl⟩ | ⟨k, b, rfl⟩ | ⟨k, b, rfl⟩ := hi
    · cases h
      rw [exec_invalidateResults, exec_ldkey, loadKeyByte_loadKeyByte_same]
    · cases h
      rw [exec_invalidateResults, exec_ldepoch, loadEpochByte_loadEpochByte_same]
    · cases h
      rw [exec_invalidateResults, exec_ldcand, loadCandByte_loadCandByte_same]
  · obtain rfl | rfl := hi
    · have hf := computeWith_derivesFromOperands Config.hmac
      cases h
      exact ⟨_, exec_compute _, hf.sameRegisters_twice s, fun _ => hf.calls_twice s⟩
    · have hf := validateWith_derivesFromOperands Config.hmac
      cases h
      exact ⟨_, exec_validate _, hf.sameRegisters_twice s, fun _ => hf.calls_twice s⟩

end Sys2Proof.Proofs

/-! SUPPORT. The encoding: the words of a command as numbers, the rows of R46 and the illegal words of R47 as ranges of
numbers, and decoding and encoding as inverses of each other. -/

namespace Sys2Proof.Proofs

open Sys2Proof.Machine Sys2Proof.Claims

/-! ## The rows of R46 as ranges -/

/-- A mask that keeps the bits from `k` on rounds down to a multiple of `2 ^ k`. -/
theorem and_highMask_eq_iff {n : Nat} (w v : BitVec n) (k : Nat) :
    w &&& BitVec.allOnes n <<< k = v ↔ w.toNat / 2 ^ k * 2 ^ k = v.toNat := by
  have hbits : w &&& BitVec.allOnes n <<< k = (w >>> k) <<< k := by
    apply BitVec.eq_of_getLsbD_eq
    intro i hi
    by_cases hk : i < k
    · simp [hk]
    · simp [hk, hi, show k + (i - k) = i by omega]
  have hlt : w.toNat / 2 ^ k * 2 ^ k < 2 ^ n := Nat.lt_of_le_of_lt (Nat.div_mul_le_self _ _) w.isLt
  rw [← BitVec.toNat_inj, hbits, BitVec.toNat_shiftLeft, BitVec.toNat_ushiftRight, Nat.shiftRight_eq_div_pow,
    Nat.shiftLeft_eq, Nat.mod_eq_of_lt hlt]

/-- The words of LDKEY's row. -/
theorem ldkeyRow_iff (w : CmdWord) : w &&& 0xF000 = 0x1000 ↔ 0x1000 ≤ w.toNat ∧ w.toNat ≤ 0x1FFF :=
  (and_highMask_eq_iff w 0x1000 12).trans (by simp only [BitVec.ofNat_eq_ofNat, BitVec.toNat_ofNat]; omega)

/-- The words of LDEPOCH's row. -/
theorem ldepochRow_iff (w : CmdWord) : w &&& 0xF800 = 0x2000 ↔ 0x2000 ≤ w.toNat ∧ w.toNat ≤ 0x27FF :=
  (and_highMask_eq_iff w 0x2000 11).trans (by simp only [BitVec.ofNat_eq_ofNat, BitVec.toNat_ofNat]; omega)

/-- The words of LDCAND's row. -/
theorem ldcandRow_iff (w : CmdWord) : w &&& 0xFC00 = 0x3000 ↔ 0x3000 ≤ w.toNat ∧ w.toNat ≤ 0x33FF :=
  (and_highMask_eq_iff w 0x3000 10).trans (by simp only [BitVec.ofNat_eq_ofNat, BitVec.toNat_ofNat]; omega)

/-! ## Words and fields as numbers -/

/-- A bit field of a word, read as an integer (R45). -/
theorem toNat_field (w : CmdWord) (lo len : Nat) : (w.extractLsb' lo len).toNat = w.toNat / 2 ^ lo % 2 ^ len := by
  rw [BitVec.extractLsb'_toNat, Nat.shiftRight_eq_div_pow]

theorem toNat_append_eq {m n : Nat} (x : BitVec m) (y : BitVec n) : (x ++ y).toNat = x.toNat * 2 ^ n + y.toNat := by
  rw [BitVec.toNat_append, Nat.shiftLeft_eq, Nat.mul_comm, ← Nat.two_pow_add_eq_or_of_lt y.isLt]

/-- A word made of a row's fixed bits and two operands, as a number. -/
theorem toNat_pattern {m n : Nat} (op : BitVec m) (i : BitVec n) (b : Byte) :
    (op ++ i ++ b).toNat = op.toNat * 2 ^ n * 256 + i.toNat * 256 + b.toNat := by
  rw [toNat_append_byte, toNat_append_eq, Nat.add_mul]
  norm_num

/-- The operands of a word made of a row's fixed bits and two operands. -/
theorem fields_pattern {m n : Nat} (op : BitVec m) (i : BitVec n) (b : Byte) :
    (op ++ i ++ b).extractLsb' 8 n = i ∧ (op ++ i ++ b).extractLsb' 0 8 = b := by
  constructor
  · rw [BitVec.extractLsb'_append_eq_of_le (by simp)]
    exact BitVec.extractLsb'_append_eq_right
  · exact BitVec.extractLsb'_append_eq_right

theorem toNat_encode_ldkey (i : BitVec 4) (b : Byte) :
    (encode (.ldkey i b)).toNat = 0x1000 + i.toNat * 256 + b.toNat := toNat_pattern 0b0001#4 i b

theorem toNat_encode_ldepoch (i : BitVec 3) (b : Byte) :
    (encode (.ldepoch i b)).toNat = 0x2000 + i.toNat * 256 + b.toNat := toNat_pattern 0b00100#5 i b

theorem toNat_encode_ldcand (i : BitVec 2) (b : Byte) :
    (encode (.ldcand i b)).toNat = 0x3000 + i.toNat * 256 + b.toNat := toNat_pattern 0b001100#6 i b

/-! ## What each row's words decode to (R46) -/

theorem decode_ldkeyRow {w : CmdWord} (h : w &&& 0xF000 = 0x1000) :
    decode w = .ok (.ldkey (w.extractLsb' 8 4) (w.extractLsb' 0 8)) := by
  rw [decode_eq, if_pos h]

theorem decode_ldepochRow {w : CmdWord} (h : w &&& 0xF800 = 0x2000) :
    decode w = .ok (.ldepoch (w.extractLsb' 8 3) (w.extractLsb' 0 8)) := by
  have hkey : w &&& 0xF000 ≠ 0x1000 := by
    rw [ldepochRow_iff] at h
    rw [Ne, ldkeyRow_iff]
    omega
  rw [decode_eq, if_neg hkey, if_pos h]

theorem decode_ldcandRow {w : CmdWord} (h : w &&& 0xFC00 = 0x3000) :
    decode w = .ok (.ldcand (w.extractLsb' 8 2) (w.extractLsb' 0 8)) := by
  rw [ldcandRow_iff] at h
  have hkey : w &&& 0xF000 ≠ 0x1000 := by
    rw [Ne, ldkeyRow_iff]
    omega
  have hepoch : w &&& 0xF800 ≠ 0x2000 := by
    rw [Ne, ldepochRow_iff]
    omega
  rw [decode_eq, if_neg hkey, if_neg hepoch, if_pos ((ldcandRow_iff w).mpr h)]

/-- Decoding refuses exactly the words that match no row. -/
theorem decode_error_iff_no_row (w : CmdWord) : (∃ e, decode w = .error e) ↔
    w &&& 0xF000 ≠ 0x1000 ∧ w &&& 0xF800 ≠ 0x2000 ∧ w &&& 0xFC00 ≠ 0x3000 ∧ w ≠ 0x4000 ∧ w ≠ 0x5000 ∧ w ≠ 0x6000 := by
  rw [decode_eq]
  split_ifs <;> simp_all

/-- The words that match no row are those of the ranges of R47. -/
theorem decode_error_iff_illegalRange (w : CmdWord) : (∃ e, decode w = .error e) ↔ IllegalRange w.toNat := by
  rw [decode_error_iff_no_row, Ne, ldkeyRow_iff, Ne, ldepochRow_iff, Ne, ldcandRow_iff, Ne, Ne, Ne, ← BitVec.toNat_inj,
    ← BitVec.toNat_inj, ← BitVec.toNat_inj, IllegalRange]
  simp only [BitVec.ofNat_eq_ofNat, BitVec.toNat_ofNat]
  omega

/-- A word decodes to a command or is refused, and not both. -/
theorem decode_ok_iff (w : CmdWord) : (∃ i, decode w = .ok i) ↔ ¬ ∃ e, decode w = .error e := by
  cases decode w <;> simp

/-! ## Decoding and encoding -/

theorem decode_encode (i : Instr) : decode (encode i) = .ok i := by
  cases i with
  | ldkey i b =>
    have hrow := (ldkeyRow_iff (encode (.ldkey i b))).mpr (by rw [toNat_encode_ldkey]; omega)
    obtain ⟨hi, hb⟩ := fields_pattern 0b0001#4 i b
    rw [decode_ldkeyRow hrow]
    exact congrArg₂ (fun i b => Except.ok (Instr.ldkey i b)) hi hb
  | ldepoch i b =>
    have hrow := (ldepochRow_iff (encode (.ldepoch i b))).mpr (by rw [toNat_encode_ldepoch]; omega)
    obtain ⟨hi, hb⟩ := fields_pattern 0b00100#5 i b
    rw [decode_ldepochRow hrow]
    exact congrArg₂ (fun i b => Except.ok (Instr.ldepoch i b)) hi hb
  | ldcand i b =>
    have hrow := (ldcandRow_iff (encode (.ldcand i b))).mpr (by rw [toNat_encode_ldcand]; omega)
    obtain ⟨hi, hb⟩ := fields_pattern 0b001100#6 i b
    rw [decode_ldcandRow hrow]
    exact congrArg₂ (fun i b => Except.ok (Instr.ldcand i b)) hi hb
  | compute => rfl
  | validate => rfl
  | clrkey => rfl

/-- A word of LDKEY's row is the word of the LDKEY with its own fields as operands. -/
theorem encode_ldkey_fields {w : CmdWord} (h : w &&& 0xF000 = 0x1000) :
    encode (.ldkey (w.extractLsb' 8 4) (w.extractLsb' 0 8)) = w := by
  rw [ldkeyRow_iff] at h
  rw [← BitVec.toNat_inj, toNat_encode_ldkey, toNat_field, toNat_field]
  omega

/-- A word of LDEPOCH's row is the word of the LDEPOCH with its own fields as operands. -/
theorem encode_ldepoch_fields {w : CmdWord} (h : w &&& 0xF800 = 0x2000) :
    encode (.ldepoch (w.extractLsb' 8 3) (w.extractLsb' 0 8)) = w := by
  rw [ldepochRow_iff] at h
  rw [← BitVec.toNat_inj, toNat_encode_ldepoch, toNat_field, toNat_field]
  omega

/-- A word of LDCAND's row is the word of the LDCAND with its own fields as operands. -/
theorem encode_ldcand_fields {w : CmdWord} (h : w &&& 0xFC00 = 0x3000) :
    encode (.ldcand (w.extractLsb' 8 2) (w.extractLsb' 0 8)) = w := by
  rw [ldcandRow_iff] at h
  rw [← BitVec.toNat_inj, toNat_encode_ldcand, toNat_field, toNat_field]
  omega

/-- Only a command's own word decodes to it. -/
theorem encode_of_decode {w : CmdWord} {i : Instr} (h : decode w = .ok i) : encode i = w := by
  rw [decode_eq] at h
  split_ifs at h with hkey hepoch hcand hcompute hvalidate hclrkey
  · cases h
    exact encode_ldkey_fields hkey
  · cases h
    exact encode_ldepoch_fields hepoch
  · cases h
    exact encode_ldcand_fields hcand
  · cases h
    exact hcompute.symm
  · cases h
    exact hvalidate.symm
  · cases h
    exact hclrkey.symm

/-- Settles O8: each row's pattern holds its operands where the decoder reads them, and fixes every other bit. -/
theorem decodeAndEncodeAgree : Obligations.DecodeAndEncodeAgree :=
  ⟨decode_encode, fun _ _ => encode_of_decode⟩

/-! ## The rows' words, their operands and their number -/

/-- The low byte of a word as a number. -/
theorem toNat_imm8 (w : CmdWord) : (w.extractLsb' 0 8).toNat = w.toNat % 256 := by
  rw [toNat_field]
  omega

/-- A word that two rows accept has the two rows' fixed bits at once. -/
theorem values_agree_of_accepts {r r' : OpcodeRow} {w : CmdWord} (h : r.accepts w = true) (h' : r'.accepts w = true) :
    r.value &&& r'.mask = r'.value &&& r.mask := by
  simp only [OpcodeRow.accepts, beq_iff_eq] at h h'
  rw [← h, ← h', BitVec.and_assoc, BitVec.and_assoc, BitVec.and_comm r.mask]

/-- Two different rows differ in a bit that both of them fix. -/
theorem rows_differ : ∀ m n : Fin opcodeRows.length,
    (opcodeRows.get m).value &&& (opcodeRows.get n).mask = (opcodeRows.get n).value &&& (opcodeRows.get m).mask → m = n := by
  decide

/-- Settles O6: each row's words are a range of numbers, the ranges do not overlap, and a word outside all of them is
refused. -/
theorem wordDecodesByItsRow : Obligations.WordDecodesByItsRow := by
  refine ⟨fun w => ⟨fun h => ?_, fun h => ?_, fun h => ?_, fun h => ?_, fun h => ?_, fun h => ?_, ?_⟩,
    fun m n w hm hn => rows_differ m n (values_agree_of_accepts hm hn)⟩
  · exact ⟨_, _, decode_ldkeyRow h, toNat_field w 8 4, toNat_imm8 w⟩
  · refine ⟨_, _, decode_ldepochRow h, ?_, toNat_imm8 w⟩
    rw [ldepochRow_iff] at h
    rw [toNat_field]
    omega
  · refine ⟨_, _, decode_ldcandRow h, ?_, toNat_imm8 w⟩
    rw [ldcandRow_iff] at h
    rw [toNat_field]
    omega
  · exact (decode_eq_compute w).mpr (BitVec.and_allOnes.symm.trans h)
  · exact (decode_eq_validate w).mpr (BitVec.and_allOnes.symm.trans h)
  · exact (decode_eq_clrkey w).mpr (BitVec.and_allOnes.symm.trans h)
  · exact fun h1 h2 h3 h4 h5 h6 => (decode_error_iff_no_row w).mpr ⟨h1, h2, h3, h4, h5, h6⟩

/-- A command is one of the three loads with its operands, or one of the three commands without. -/
def instrEquiv : Instr ≃ (BitVec 4 × Byte) ⊕ (BitVec 3 × Byte) ⊕ (BitVec 2 × Byte) ⊕ Fin 3 where
  toFun
    | .ldkey i b => .inl (i, b)
    | .ldepoch i b => .inr (.inl (i, b))
    | .ldcand i b => .inr (.inr (.inl (i, b)))
    | .compute => .inr (.inr (.inr 0))
    | .validate => .inr (.inr (.inr 1))
    | .clrkey => .inr (.inr (.inr 2))
  invFun
    | .inl (i, b) => .ldkey i b
    | .inr (.inl (i, b)) => .ldepoch i b
    | .inr (.inr (.inl (i, b))) => .ldcand i b
    | .inr (.inr (.inr 0)) => .compute
    | .inr (.inr (.inr 1)) => .validate
    | .inr (.inr (.inr 2)) => .clrkey
  left_inv i := by cases i <;> rfl
  right_inv
    | .inl _ => rfl
    | .inr (.inl _) => rfl
    | .inr (.inr (.inl _)) => rfl
    | .inr (.inr (.inr 0)) => rfl
    | .inr (.inr (.inr 1)) => rfl
    | .inr (.inr (.inr 2)) => rfl

theorem card_bitVec (n : Nat) : Nat.card (BitVec n) = 2 ^ n := by
  rw [Nat.card_congr BitVec.equivFin.toEquiv, Nat.card_fin]

theorem card_instr : Nat.card Instr = 4096 + 2048 + 1024 + 3 := by
  rw [Nat.card_congr instrEquiv]
  simp only [Nat.card_sum, Nat.card_prod, card_bitVec, Nat.card_fin]
  rfl

/-- The legal words are the words of the commands, one each. -/
theorem card_legal : Nat.card { w : CmdWord // ∃ i, decode w = .ok i } = 7171 := by
  have hbij : Function.Bijective fun i : Instr =>
      (⟨encode i, i, decode_encode i⟩ : { w : CmdWord // ∃ i, decode w = .ok i }) := by
    constructor
    · intro i j h
      have h : encode i = encode j := congrArg Subtype.val h
      simpa [decode_encode] using congrArg decode h
    · rintro ⟨w, i, h⟩
      exact ⟨i, Subtype.ext (encode_of_decode h)⟩
  rw [← Nat.card_congr (Equiv.ofBijective _ hbij), card_instr]

/-- Every word that is not legal is illegal. -/
theorem card_illegal : Nat.card { w : CmdWord // ∃ e, decode w = .error e } = 58365 := by
  classical
  have hall := Nat.card_congr (Equiv.sumCompl fun w : CmdWord => ∃ e, decode w = .error e)
  rw [Nat.card_sum, card_bitVec] at hall
  simp only [← decode_ok_iff, card_legal] at hall
  exact Nat.eq_sub_of_add_eq hall

/-- Raising ILLEGAL sets bit 0 of `ERR` and no other. -/
theorem errGains_illegalWord (s : State) : ErrGains s s.illegalWord (fun n => n = 0) := by
  intro n hn
  rw [State.illegalWord_err, BitVec.getLsbD_or, Bool.or_eq_true]
  interval_cases n <;> simp [illegalBit]

/-- Settles O7: the illegal words are those outside the rows, the legal ones are counted by the commands, and the step of an
illegal word raises ILLEGAL alone. -/
theorem illegalWordsAreExactlyTheListed : Obligations.IllegalWordsAreExactlyTheListed := by
  refine ⟨decode_error_iff_illegalRange, card_legal, card_illegal, fun s w rest hs hw => ?_⟩
  obtain ⟨e, he⟩ := (decode_error_iff_illegalRange w).mpr hw
  exact ⟨_, step_illegal s w rest e hs he, errGains_illegalWord _, ⟨rfl, rfl, rfl, rfl, rfl, rfl⟩, ⟨rfl, rfl, rfl, rfl⟩, rfl⟩

/-! ## Well-formed fields -/

/-- The columns of R46's table as conditions on the three fields. -/
theorem wellFormed_iff (f : CmdFields) : f.wellFormed = true ↔
    f.op.toNat = 1 ∨ (f.op.toNat = 2 ∧ f.idx.toNat < 8) ∨ (f.op.toNat = 3 ∧ f.idx.toNat < 4) ∨
      (4 ≤ f.op.toNat ∧ f.op.toNat ≤ 6 ∧ f.idx.toNat = 0 ∧ f.imm8.toNat = 0) := by
  unfold CmdFields.wellFormed
  split <;> simp only [Bool.and_eq_true, beq_iff_eq, decide_eq_true_eq, true_iff, Bool.false_eq_true, false_iff, imp_false] at *
  all_goals omega

/-- Settles O9: as conditions on the word's number, the columns of the table leave out the ranges of R47. -/
theorem decodeAcceptsWellFormedFields : Obligations.DecodeAcceptsWellFormedFields := by
  intro w
  have hop : (CmdFields.ofWord w).op.toNat = w.toNat / 2 ^ 12 % 2 ^ 4 := toNat_field w 12 4
  have hidx : (CmdFields.ofWord w).idx.toNat = w.toNat / 2 ^ 8 % 2 ^ 4 := toNat_field w 8 4
  have himm : (CmdFields.ofWord w).imm8.toNat = w.toNat % 256 := toNat_imm8 w
  rw [decode_ok_iff, decode_error_iff_illegalRange, wellFormed_iff, hop, hidx, himm, IllegalRange]
  omega

/-- Settles O5: twenty evaluations of the decoder, which computes. -/
theorem specWordsDecodeAsListed : Obligations.SpecWordsDecodeAsListed := by
  unfold Obligations.SpecWordsDecodeAsListed
  decide

end Sys2Proof.Proofs

/-! SUPPORT. The assembler: the words of a checked source line (R49), and the pseudo-commands (R50), whose loads leave the
whole operand loaded. -/

namespace Sys2Proof.Proofs

open Sys2Proof.Machine Sys2Proof.Claims

/-! ## The command forms (R49) -/

theorem assembleSource_of_wellFormed {l : SourceLine} (h : l.wellFormed = true) : assembleSource l = some (expandLine l) :=
  if_pos h

theorem assembleSource_eq_none {l : SourceLine} (h : ¬ l.wellFormed = true) : assembleSource l = none := if_neg h

/-- A line that is one command, its operand check said as `P`: the command's word where `P` holds, an error where not. -/
theorem assembleSource_command {l : SourceLine} {i : Instr} {P : Prop} [Decidable P] (hl : expandLine l = [encode i])
    (hP : l.wellFormed = true ↔ P) :
    if P then ∃ w, assembleSource l = some [w] ∧ decode w = .ok i else assembleSource l = none := by
  split
  next h => exact ⟨encode i, hl ▸ assembleSource_of_wellFormed (hP.mpr h), decode_encode i⟩
  next h => exact assembleSource_eq_none (mt hP.mp h)

theorem operands_in_range_iff (i b n : Nat) : (decide (i < n + 1) && decide (b < 256)) = true ↔ i ≤ n ∧ b ≤ 255 := by
  rw [Bool.and_eq_true, decide_eq_true_eq, decide_eq_true_eq, Nat.lt_succ_iff, Nat.lt_succ_iff]

/-- Settles O48: a form expands to the word of its command, and its check is the range of its operands. -/
theorem commandFormsAssembleInRangeOnly : Obligations.CommandFormsAssembleInRangeOnly :=
  ⟨fun i b => assembleSource_command rfl (operands_in_range_iff i b 15),
    fun i b => assembleSource_command rfl (operands_in_range_iff i b 7),
    fun i b => assembleSource_command rfl (operands_in_range_iff i b 3),
    ⟨_, rfl, decode_encode .compute⟩, ⟨_, rfl, decode_encode .validate⟩, ⟨_, rfl, decode_encode .clrkey⟩⟩

/-! ## Runs of commands -/

/-- A run of the words of commands is the commands one after the other. -/
theorem runEvents_encode (is : List Instr) (s : State) :
    runEvents (is.map fun i => .word (encode i)) s = execAll is s := by
  induction is generalizing s with
  | nil => rfl
  | cons i is ih =>
    obtain ⟨t, ht, -⟩ := exec_next i s
    rw [List.map_cons, runEvents_command _ i _ s t (decode_encode i) ht, ih]
    simp only [execAll, ht]

/-- `load` writes one byte of the operand seen through `byte?`, leaves the results invalid, and keeps what `kept` shows. -/
def LoadsByte {n : Nat} {K : Type} (load : BitVec n → Byte → Instr) (byte? : State → BitVec n → Option Byte)
    (kept : State → K) : Prop :=
  ∀ i b s, ∃ t, exec (load i b) s = .next t ∧ (∀ j, byte? t j = if j = i then some b else byte? s j) ∧
    ResultsInvalid t ∧ kept t = kept s

/-- What the loads of the key keep. -/
def keptByKeyLoads (s : State) := (s.epoch, s.emask, s.cand, s.cmask, s.err, s.host, s.calls)

/-- What the loads of the epoch time keep. -/
def keptByEpochLoads (s : State) := (s.key, s.kmask, s.cand, s.cmask, s.err, s.host, s.calls)

/-- What the loads of the candidate keep. -/
def keptByCandLoads (s : State) := (s.key, s.kmask, s.epoch, s.emask, s.err, s.host, s.calls)

theorem loadsByte_ldkey : LoadsByte .ldkey State.keyByte? keptByKeyLoads := fun i b s =>
  ⟨_, exec_ldkey i b s, fun j => keyByte?_loadKeyByte s i j b, resultsInvalid_invalidateResults _, rfl⟩

theorem loadsByte_ldepoch : LoadsByte .ldepoch State.epochByte? keptByEpochLoads := fun i b s =>
  ⟨_, exec_ldepoch i b s, fun j => epochByte?_loadEpochByte s i j b, resultsInvalid_invalidateResults _, rfl⟩

theorem loadsByte_ldcand : LoadsByte .ldcand State.candByte? keptByCandLoads := fun i b s =>
  ⟨_, exec_ldcand i b s, fun j => candByte?_loadCandByte s i j b, resultsInvalid_invalidateResults _, rfl⟩

/-- All indices of an operand of `2 ^ n` bytes, in ascending order. -/
def indices (n : Nat) : List (BitVec n) := (List.finRange (2 ^ n)).map fun k => BitVec.ofNat n k.val

theorem mem_indices {n : Nat} (i : BitVec n) : i ∈ indices n :=
  List.mem_map.mpr ⟨i.toFin, List.mem_finRange _, by simp⟩

theorem indices_ne_nil (n : Nat) : indices n ≠ [] := List.ne_nil_of_mem (mem_indices 0)

theorem getElem_indices {n k : Nat} (h : k < (indices n).length) : (indices n)[k] = BitVec.ofNat n k := by
  simp only [indices, List.getElem_map, List.getElem_finRange, Fin.val_cast]

/-- The words of an operand's loads in ascending index order decode to these loads. -/
theorem decode_loads {n : Nat} {load : BitVec n → Byte → Instr} {f : BitVec n → Byte} {g : Fin (2 ^ n) → Byte}
    (hfg : ∀ k, f (BitVec.ofNat n k.val) = g k) :
    ((indices n).map fun i => encode (load i (f i))).map decode =
      (List.finRange (2 ^ n)).map fun k => .ok (load (BitVec.ofNat n k.val) (g k)) := by
  simp only [indices, List.map_map, Function.comp_def, decode_encode, hfg]

section Loads

variable {n : Nat} {K : Type} {load : BitVec n → Byte → Instr} {byte? : State → BitVec n → Option Byte} {kept : State → K}
  (hload : LoadsByte load byte? kept) (f : BitVec n → Byte)

include hload

/-- Loads of the bytes `f i` for a list of indices: these bytes are loaded, the others are as they were. -/
theorem LoadsByte.execAll (is : List (BitVec n)) (s : State) (hs : is = [] → ResultsInvalid s) :
    ∃ t, execAll (is.map fun i => load i (f i)) s = .next t ∧
      (∀ j, byte? t j = if j ∈ is then some (f j) else byte? s j) ∧ ResultsInvalid t ∧ kept t = kept s := by
  induction is generalizing s with
  | nil => exact ⟨s, rfl, fun j => by simp, hs rfl, rfl⟩
  | cons i is ih =>
    obtain ⟨u, hu, hbyte, hinv, hkept⟩ := hload i (f i) s
    obtain ⟨t, ht, hbyte', hinv', hkept'⟩ := ih u fun _ => hinv
    refine ⟨t, ?_, fun j => ?_, hinv', hkept'.trans hkept⟩
    · simpa only [List.map_cons, Claims.execAll, hu] using ht
    · rw [hbyte', hbyte]
      by_cases hj : j = i
      · simp [hj]
      · simp [hj]

/-- The loads of a whole operand, issued from any state. -/
theorem LoadsByte.runEvents_all (s : State) :
    ∃ t, runEvents (((indices n).map fun i => encode (load i (f i))).map .word) s = .next t ∧
      (∀ j, byte? t j = some (f j)) ∧ ResultsInvalid t ∧ kept t = kept s := by
  obtain ⟨t, ht, hbyte, hinv, hkept⟩ := hload.execAll f (indices n) s fun h => absurd h (indices_ne_nil n)
  refine ⟨t, ?_, fun j => ?_, hinv, hkept⟩
  · rw [← ht, ← runEvents_encode]
    simp only [List.map_map, Function.comp_def]
  · rw [hbyte, if_pos (mem_indices j)]

end Loads

/-! ## The pseudo-commands (R50) -/

/-- With every optional byte there the key is loaded. -/
theorem key_of_keyByte? {t : State} {f : BitVec 4 → Byte} (h : ∀ i, t.keyByte? i = some (f i)) :
    t.kmask = 0xFFFF ∧ ∀ i : BitVec 4, t.key[i.toNat] = f i := by
  have hbyte (i : BitVec 4) : t.kmask.getLsbD i.toNat = true ∧ t.key[i.toNat] = f i := by
    simpa [State.keyByte?] using h i
  exact ⟨(keyValid_eq_true t).mp (t.keyValid_iff.mpr fun i => (hbyte i).1), fun i => (hbyte i).2⟩

/-- With every optional byte that of `v` the epoch time is `v`. -/
theorem epoch_of_epochByte? {t : State} {v : BitVec 64} (h : ∀ i, t.epochByte? i = some (byteAt v (epochLsb i))) :
    t.emask = 0xFF ∧ t.epoch = v := by
  have hbyte (i : BitVec 3) : t.emask.getLsbD i.toNat = true ∧ byteAt t.epoch (epochLsb i) = byteAt v (epochLsb i) := by
    simpa [State.epochByte?] using h i
  exact ⟨(epochValid_eq_true t).mp (t.epochValid_iff.mpr fun i => (hbyte i).1), epoch_eq_of_bytes fun i => (hbyte i).2⟩

/-- With every optional byte that of `v` the candidate is `v`. -/
theorem cand_of_candByte? {t : State} {v : BitVec 32} (h : ∀ i, t.candByte? i = some (byteAt v (candLsb i))) :
    t.cmask = 0xF ∧ t.cand = v := by
  have hbyte (i : BitVec 2) : t.cmask.getLsbD i.toNat = true ∧ byteAt t.cand (candLsb i) = byteAt v (candLsb i) := by
    simpa [State.candByte?] using h i
  exact ⟨(candValid_eq_true t).mp (t.candValid_iff.mpr fun i => (hbyte i).1), cand_eq_of_bytes fun i => (hbyte i).2⟩

theorem expandKey_eq (bytes : List Nat) (k : Nat) : expandKey bytes k =
    (bytes.zipIdx k).map fun p => encode (.ldkey (BitVec.ofNat 4 p.2) (BitVec.ofNat 8 p.1)) := by
  induction bytes generalizing k with
  | nil => rfl
  | cons b bs ih => rw [expandKey, ih, List.zipIdx_cons, List.map_cons]

/-- Byte `i` of a list of key bytes. -/
def keyByteOf (bytes : List Nat) (i : BitVec 4) : Byte := BitVec.ofNat 8 (bytes.getD i.toNat 0)

theorem keyByteOf_ofNat {bytes : List Nat} {k : Nat} (hk : k < 16) (hkl : k < bytes.length) :
    keyByteOf bytes (BitVec.ofNat 4 k) = BitVec.ofNat 8 bytes[k] := by
  rw [keyByteOf, BitVec.toNat_ofNat, Nat.mod_eq_of_lt hk, List.getD_eq_getElem _ _ hkl]

theorem assembleSource_key {bytes : List Nat} (hlen : bytes.length = 16) (hb : ∀ b ∈ bytes, b < 256) :
    assembleSource (.key bytes) = some ((indices 4).map fun i => encode (.ldkey i (keyByteOf bytes i))) := by
  rw [assembleSource_of_wellFormed (by simpa [SourceLine.wellFormed, hlen] using hb), expandLine, expandKey_eq]
  refine congrArg some (List.ext_getElem (by simp [indices, hlen]) fun k h1 h2 => ?_)
  have hk : k < bytes.length := by simpa using h1
  simp only [List.getElem_map, List.getElem_zipIdx, getElem_indices, keyByteOf_ofNat (hlen ▸ hk) hk, Nat.zero_add]

theorem assembleSource_epoch {v : Nat} (hv : v < 2 ^ 64) : assembleSource (.epoch v) =
    some ((indices 3).map fun i => encode (.ldepoch i (byteAt (BitVec.ofNat 64 v) (epochLsb i)))) := by
  rw [assembleSource_of_wellFormed (by simpa [SourceLine.wellFormed] using hv)]
  rfl

theorem assembleSource_cand {v : Nat} (hv : v < 2 ^ 32) : assembleSource (.cand v) =
    some ((indices 2).map fun i => encode (.ldcand i (byteAt (BitVec.ofNat 32 v) (candLsb i)))) := by
  rw [assembleSource_of_wellFormed (by simpa [SourceLine.wellFormed] using hv)]
  rfl

theorem epochByte_ofNat {v : Nat} (hv : v < 2 ^ 64) (k : Fin 8) :
    byteAt (BitVec.ofNat 64 v) (epochLsb (BitVec.ofNat 3 k.val)) = BitVec.ofNat 8 (v / 256 ^ (7 - k.val) % 256) := by
  obtain ⟨hbyte, -⟩ := operandBytesAreBigEndian
  apply BitVec.eq_of_toNat_eq
  rw [hbyte, BitVec.toNat_ofNat, BitVec.toNat_ofNat, BitVec.toNat_ofNat, Nat.mod_eq_of_lt hv, Nat.mod_eq_of_lt k.isLt,
    Nat.mod_mod]

theorem candByte_ofNat {v : Nat} (hv : v < 2 ^ 32) (k : Fin 4) :
    byteAt (BitVec.ofNat 32 v) (candLsb (BitVec.ofNat 2 k.val)) = BitVec.ofNat 8 (v / 256 ^ (3 - k.val) % 256) := by
  obtain ⟨-, hbyte, -⟩ := operandBytesAreBigEndian
  apply BitVec.eq_of_toNat_eq
  rw [hbyte, BitVec.toNat_ofNat, BitVec.toNat_ofNat, BitVec.toNat_ofNat, Nat.mod_eq_of_lt hv, Nat.mod_eq_of_lt k.isLt,
    Nat.mod_mod]

/-- Settles O47: each line expands to one load for every index of its operand, so every byte is loaded, and with it the
mask is full and the operand is the line's value. -/
theorem pseudoCommandsLoadWholeOperands : Obligations.PseudoCommandsLoadWholeOperands := by
  refine ⟨fun bytes hlen hb => ⟨_, assembleSource_key hlen hb, decode_loads fun k => ?_, fun s => ?_⟩,
    fun v hv => ⟨_, assembleSource_epoch hv, decode_loads (epochByte_ofNat hv), fun s => ?_⟩,
    fun v hv => ⟨_, assembleSource_cand hv, decode_loads (candByte_ofNat hv), fun s => ?_⟩⟩
  · exact keyByteOf_ofNat k.isLt (k.isLt.trans_eq hlen.symm)
  · obtain ⟨t, ht, hbyte, hinv, hkept⟩ := loadsByte_ldkey.runEvents_all (keyByteOf bytes) s
    obtain ⟨hmask, hkey⟩ := key_of_keyByte? hbyte
    refine ⟨t, ht, fun k => ?_, hmask, hinv, by simpa [keptByKeyLoads] using hkept⟩
    have hk : k.val < bytes.length := k.isLt.trans_eq hlen.symm
    have hkey : t.key[k.val] = BitVec.ofNat 8 bytes[k.val] := by
      simpa only [BitVec.toNat_ofNat, Nat.mod_eq_of_lt k.isLt, keyByteOf_ofNat k.isLt hk] using hkey (BitVec.ofNat 4 k.val)
    rw [Fin.getElem_fin, hkey, BitVec.toNat_ofNat, Nat.mod_eq_of_lt (hb _ (List.getElem_mem hk))]
  · obtain ⟨t, ht, hbyte, hinv, hkept⟩ := loadsByte_ldepoch.runEvents_all (fun i => byteAt (BitVec.ofNat 64 v) (epochLsb i)) s
    obtain ⟨hmask, hepoch⟩ := epoch_of_epochByte? hbyte
    refine ⟨t, ht, ?_, hmask, hinv, by simpa [keptByEpochLoads] using hkept⟩
    rw [hepoch, BitVec.toNat_ofNat, Nat.mod_eq_of_lt hv]
  · obtain ⟨t, ht, hbyte, hinv, hkept⟩ := loadsByte_ldcand.runEvents_all (fun i => byteAt (BitVec.ofNat 32 v) (candLsb i)) s
    obtain ⟨hmask, hcand⟩ := cand_of_candByte? hbyte
    refine ⟨t, ht, ?_, hmask, hinv, by simpa [keptByCandLoads] using hkept⟩
    rw [hcand, BitVec.toNat_ofNat, Nat.mod_eq_of_lt hv]

end Sys2Proof.Proofs

/-! SUPPORT. The operand loads: each operand byte along a run (R55), and the words, the one byte and the one mask bit of
LDKEY, LDEPOCH and LDCAND (R52 to R54). -/

namespace Sys2Proof.Proofs

open Sys2Proof.Machine Sys2Proof.Claims

/-! ## What a state shows of itself, traced along a run -/

/-- A run answers a state, whatever the host issues. -/
theorem runEvents_next (evs : List HostEvent) (s : State) : ∃ t, runEvents evs s = .next t := by
  induction evs generalizing s with
  | nil => exact ⟨s, rfl⟩
  | cons ev evs ih =>
    obtain ⟨htaken, -⟩ := everyEventIsTaken
    obtain ⟨u, hu, -⟩ := htaken (s.issueNext ev) ev s.host rfl
    exact (runEvents_cons ev evs s u hu).symm ▸ ih u

/-- `trace` says what each of the three kinds of step makes of `view`: the reset step (R84), a command (R40), an illegal
word (R79). -/
structure Traces {α : Type} (view : State → α) (trace : α → HostEvent → α) : Prop where
  reset : ∀ s, view s.assertReset = trace (view s) .reset
  command : ∀ {w i s t}, decode w = .ok i → exec i s = .next t → view t = trace (view s) (.word w)
  illegal : ∀ {w e} s, decode w = .error e → view s.illegalWord = trace (view s) (.word w)

section Traces

variable {α : Type} {view : State → α} {trace : α → HostEvent → α} (htr : Traces view trace)

include htr

/-- One event, through the three kinds of step. -/
theorem Traces.step {s t : State} {ev : HostEvent} (h : step (s.issueNext ev) = .next t) :
    view t = trace (view s) ev := by
  cases ev with
  | reset =>
    cases (step_reset (s.issueNext .reset) s.host rfl).symm.trans h
    exact htr.reset s
  | word w =>
    match hw : decode w with
    | .ok i => exact htr.command hw ((step_command (s.issueNext (.word w)) w s.host i rfl hw).symm.trans h)
    | .error e =>
      cases (step_illegal (s.issueNext (.word w)) w s.host e rfl hw).symm.trans h
      exact htr.illegal s hw

/-- What a run makes of `view` is its trace over the events. -/
theorem Traces.runEvents {evs : List HostEvent} {s t : State} (h : runEvents evs s = .next t) :
    view t = evs.foldl trace (view s) := by
  induction evs generalizing s with
  | nil => cases h; rfl
  | cons ev evs ih =>
    obtain ⟨u, hu, hrest⟩ := runEvents_cons_next ev evs s t h
    rw [List.foldl_cons, ← htr.step hu]
    exact ih hrest

end Traces

/-! ## The operand bytes (R55) -/

theorem keyByte?_congr {s t : State} (hkey : t.key = s.key) (hmask : t.kmask = s.kmask) (j : BitVec 4) :
    t.keyByte? j = s.keyByte? j := by
  simp only [State.keyByte?, hkey, hmask]

theorem epochByte?_congr {s t : State} (hepoch : t.epoch = s.epoch) (hmask : t.emask = s.emask) (j : BitVec 3) :
    t.epochByte? j = s.epochByte? j := by
  simp only [State.epochByte?, hepoch, hmask]

theorem candByte?_congr {s t : State} (hcand : t.cand = s.cand) (hmask : t.cmask = s.cmask) (j : BitVec 2) :
    t.candByte? j = s.candByte? j := by
  simp only [State.candByte?, hcand, hmask]

/-- A key byte is written by the LDKEY of its index and lost to CLRKEY and reset. -/
theorem traces_keyByte? (j : BitVec 4) : Traces (·.keyByte? j) (keyTrace j) where
  reset s := by simp [State.keyByte?, keyTrace]
  command {w i s t} hw h := by
    obtain ⟨hframe, -, -⟩ := exec_operand_frame h
    cases i with
    | ldkey k b =>
      cases h
      simp only [keyTrace, hw, eq_comm (a := k)]
      exact keyByte?_loadKeyByte s k j b
    | clrkey =>
      cases h
      simp only [keyTrace, hw]
      exact keyByte?_clearKey s j
    | ldepoch _ _ | ldcand _ _ | compute | validate =>
      obtain ⟨hkey, hmask⟩ := hframe nofun nofun
      simpa only [keyTrace, hw] using keyByte?_congr hkey hmask j
  illegal s hw := by
    simpa only [keyTrace, hw] using keyByte?_congr s.illegalWord_key s.illegalWord_kmask j

/-- A byte of the epoch time is written by the LDEPOCH of its index and lost to reset. -/
theorem traces_epochByte? (j : BitVec 3) : Traces (·.epochByte? j) (epochTrace j) where
  reset s := by simp [State.epochByte?, epochTrace]
  command {w i s t} hw h := by
    obtain ⟨-, hframe, -⟩ := exec_operand_frame h
    cases i with
    | ldepoch k b =>
      cases h
      simp only [epochTrace, hw, eq_comm (a := k)]
      exact epochByte?_loadEpochByte s k j b
    | ldkey _ _ | ldcand _ _ | compute | validate | clrkey =>
      obtain ⟨hepoch, hmask⟩ := hframe nofun
      simpa only [epochTrace, hw] using epochByte?_congr hepoch hmask j
  illegal s hw := by
    simpa only [epochTrace, hw] using epochByte?_congr s.illegalWord_epoch s.illegalWord_emask j

/-- A byte of the candidate is written by the LDCAND of its index and lost to reset. -/
theorem traces_candByte? (j : BitVec 2) : Traces (·.candByte? j) (candTrace j) where
  reset s := by simp [State.candByte?, candTrace]
  command {w i s t} hw h := by
    obtain ⟨-, -, hframe⟩ := exec_operand_frame h
    cases i with
    | ldcand k b =>
      cases h
      simp only [candTrace, hw, eq_comm (a := k)]
      exact candByte?_loadCandByte s k j b
    | ldkey _ _ | ldepoch _ _ | compute | validate | clrkey =>
      obtain ⟨hcand, hmask⟩ := hframe nofun
      simpa only [candTrace, hw] using candByte?_congr hcand hmask j
  illegal s hw := by
    simpa only [candTrace, hw] using candByte?_congr s.illegalWord_cand s.illegalWord_cmask j

/-- Settles O13: each step makes of every optional byte what its trace says, and so does the run, by induction over its
events. -/
theorem operandsHoldTheLastLoads : Obligations.OperandsHoldTheLastLoads := fun s evs => by
  obtain ⟨t, ht⟩ := runEvents_next evs s
  exact ⟨t, ht, fun j => (traces_keyByte? j).runEvents ht, fun j => (traces_epochByte? j).runEvents ht,
    fun j => (traces_candByte? j).runEvents ht⟩

/-! ## One load (R52 to R54) -/

/-- A command has exactly one word (R46). -/
theorem decode_eq_ok_iff (w : CmdWord) (i : Instr) : decode w = .ok i ↔ w.toNat = (encode i).toNat :=
  ⟨fun h => congrArg BitVec.toNat (encode_of_decode h).symm, fun h => BitVec.eq_of_toNat_eq h ▸ decode_encode i⟩

/-- Setting a mask bit sets that bit and leaves the others. -/
theorem setBit_sets_one_bit {w : Nat} (m : BitVec w) {n : Nat} (hn : n < w) :
    (setBit m n).getLsbD n = true ∧ ∀ k, k ≠ n → (setBit m n).getLsbD k = m.getLsbD k := by
  simp +contextual [getLsbD_setBit m _ _ hn]

/-- Every bit outside a byte written is as it was. -/
theorem getLsbD_setByteAt_outside {w : Nat} (v : BitVec w) {lo n : Nat} (b : Byte) (hw : lo + 8 ≤ w)
    (hn : ¬ (lo ≤ n ∧ n < lo + 8)) : (setByteAt v lo b).getLsbD n = v.getLsbD n := by
  rw [getLsbD_setByteAt v lo n b hw, if_neg hn]

/-- Settles O10: by the command's one word, and the rules of a byte and a mask bit written. -/
theorem ldkeyWritesOneKeyByte : Obligations.LdkeyWritesOneKeyByte := by
  refine fun i b => ⟨fun w => toNat_encode_ldkey i b ▸ decode_eq_ok_iff w (.ldkey i b), fun s => ?_⟩
  obtain ⟨hbit, hbits⟩ := setBit_sets_one_bit s.kmask i.isLt
  exact ⟨_, exec_ldkey i b s, Vector.getElem_set_self _,
    fun j hj => Vector.getElem_set_ne i.isLt j.isLt fun e => hj (BitVec.eq_of_toNat_eq e.symm), hbit, hbits,
    resultsInvalid_invalidateResults _, rfl, rfl, rfl, rfl, rfl, rfl, rfl⟩

/-- Settles O11: by the command's one word, and the rules of a byte and a mask bit written. -/
theorem ldepochWritesOneEpochByte : Obligations.LdepochWritesOneEpochByte := by
  refine fun i b => ⟨fun w => toNat_encode_ldepoch i b ▸ decode_eq_ok_iff w (.ldepoch i b), fun s => ?_⟩
  obtain ⟨hbit, hbits⟩ := setBit_sets_one_bit s.emask i.isLt
  exact ⟨_, exec_ldepoch i b s, byteAt_setByteAt_same s.epoch (epochLsb i) b (epochLsb_add_le i),
    fun n hn => getLsbD_setByteAt_outside s.epoch b (epochLsb_add_le i) (by unfold epochLsb; omega), hbit, hbits,
    resultsInvalid_invalidateResults _, rfl, rfl, rfl, rfl, rfl, rfl, rfl⟩

/-- Settles O12: by the command's one word, and the rules of a byte and a mask bit written. -/
theorem ldcandWritesOneCandidateByte : Obligations.LdcandWritesOneCandidateByte := by
  refine fun i b => ⟨fun w => toNat_encode_ldcand i b ▸ decode_eq_ok_iff w (.ldcand i b), fun s => ?_⟩
  obtain ⟨hbit, hbits⟩ := setBit_sets_one_bit s.cmask i.isLt
  exact ⟨_, exec_ldcand i b s, byteAt_setByteAt_same s.cand (candLsb i) b (candLsb_add_le i),
    fun n hn => getLsbD_setByteAt_outside s.cand b (candLsb_add_le i) (by unfold candLsb; omega), hbit, hbits,
    resultsInvalid_invalidateResults _, rfl, rfl, rfl, rfl, rfl, rfl, rfl⟩

end Sys2Proof.Proofs

/-! SUPPORT. The datapath as arithmetic: the counter and the message of an epoch time (R56, R57), the extractor (R59 to R62),
and the number of truncated values behind each code (R64). -/

namespace Sys2Proof.Proofs

open Sys2Proof.Machine Sys2Proof.Claims

/-! ## Counter and message -/

/-- Settles O14: by the division on numbers. -/
theorem counterIsEpochDivThirty : Obligations.CounterIsEpochDivThirty := by
  refine ⟨fun e => ?_, toNat_counter _, fun e c hlo hhi => ?_⟩
  · have := e.isLt
    rw [toNat_counter]
    omega
  · rw [toNat_counter]
    omega

/-- The message of an epoch time is its message as arithmetic on numbers (R57). -/
theorem isMessage_serialize (e : BitVec 64) : IsMessage e (serialize e) := by
  intro i
  have hlsb : 56 - 8 * i.val = 8 * (7 - i.val) := by omega
  rw [Fin.getElem_fin, serialize, getElem_be64bytes, toNat_byteAt, toNat_counter, hlsb, Nat.pow_mul]

/-- The bytes of the message determine the counter. -/
theorem serialize_eq_iff (e e' : BitVec 64) : serialize e = serialize e' ↔ e.toNat / 30 = e'.toNat / 30 := by
  rw [← toNat_counter, ← toNat_counter, BitVec.toNat_inj]
  refine ⟨fun h => epoch_eq_of_bytes fun i => ?_, fun h => by rw [serialize, h, serialize]⟩
  have hbyte (v : BitVec 64) : byteAt (counter v) (epochLsb i) = (serialize v)[i.toNat] :=
    (getElem_be64bytes (counter v) i.toNat i.isLt).symm
  rw [hbyte, hbyte, h]

/-- Settles O15: the bytes by weight; the top four are the quotient of the counter by `2 ^ 32`. -/
theorem messageIsTheWholeCounterBigEndian : Obligations.MessageIsTheWholeCounterBigEndian := by
  intro e
  have hmsg := isMessage_serialize e
  have hcounter : e.toNat / 30 < 2 ^ 60 := by
    have := e.isLt
    omega
  have h0 : (serialize e)[0].toNat = e.toNat / 30 / 256 ^ 7 % 256 := hmsg 0
  have h1 : (serialize e)[1].toNat = e.toNat / 30 / 256 ^ 6 % 256 := hmsg 1
  have h2 : (serialize e)[2].toNat = e.toNat / 30 / 256 ^ 5 % 256 := hmsg 2
  have h3 : (serialize e)[3].toNat = e.toNat / 30 / 256 ^ 4 % 256 := hmsg 3
  have hzero : (0 : Byte).toNat = 0 := rfl
  refine ⟨hmsg, by omega, ?_⟩
  simp only [← BitVec.toNat_inj, h0, h1, h2, h3, hzero]
  omega

/-! ## The extractor -/

/-- Byte `i` of a digest, read as a number. -/
theorem digestNat_eq (d : Vector Byte 20) {i : Nat} (hi : i < 20) : digestNat d i = d[i].toNat := by
  simp [digestNat, hi]

/-- The offset of the slice as a number (R59). -/
theorem toNat_truncOffset_eq_digestNat (d : Vector Byte 20) : (truncOffset d).toNat = digestNat d 19 % 16 := by
  rw [toNat_truncOffset, digestNat_eq d (by decide)]

/-- The raw bits as a number (R60). -/
theorem toNat_rawBits (d : Vector Byte 20) {o : Nat} (ho : (truncOffset d).toNat = o) : (rawBits d).toNat =
    digestNat d o * 2 ^ 24 + digestNat d (o + 1) * 2 ^ 16 + digestNat d (o + 2) * 2 ^ 8 + digestNat d (o + 3) := by
  have hlt : o < 16 := ho ▸ (truncOffset d).isLt
  rw [rawBits_of_offset ho hlt, toNat_be32, digestNat_eq d (by omega), digestNat_eq d (by omega),
    digestNat_eq d (by omega), digestNat_eq d (by omega)]

/-- The mask of R61 takes the raw bits modulo `2 ^ 31`. -/
theorem toNat_truncated (d : Vector Byte 20) : (truncated d).toNat = (rawBits d).toNat % 2 ^ 31 := by
  have hmask : Config.truncMask.toNat = 2 ^ 31 - 1 := rfl
  rw [truncated, BitVec.toNat_and, hmask, Nat.and_two_pow_sub_one_eq_mod]

/-- The code of a digest as arithmetic on its bytes (R59 to R62). -/
theorem toNat_extract (d : Vector Byte 20) : (extract d).toNat = truncNat d % 1000000 := by
  rw [extract, toNat_reduceToCode, toNat_truncated, toNat_rawBits d (toNat_truncOffset_eq_digestNat d), truncNat]

/-- Settles O16: one step of the extractor after the other, as numbers. -/
theorem extractorFollowsItsFourSteps : Obligations.ExtractorFollowsItsFourSteps := by
  intro d
  have hcode : (extract d).toNat = (truncated d).toNat % 1000000 := toNat_reduceToCode _
  refine ⟨toNat_truncOffset_eq_digestNat d, toNat_rawBits d rfl, ?_, hcode, by omega⟩
  have := (rawBits d).isLt
  rw [toNat_truncated]
  split <;> omega

/-! ## The images of the reduction (R64) -/

/-- The words below a bound whose number has a property are as many as the numbers below it that have it. -/
theorem card_toNat_lt_and {w N : Nat} (hN : N ≤ 2 ^ w) (p : Nat → Prop) [DecidablePred p] :
    Nat.card { t : BitVec w // t.toNat < N ∧ p t.toNat } = N.count p := by
  have hnum {k : Nat} (hk : k < N) : (BitVec.ofNat w k).toNat = k := Nat.mod_eq_of_lt (hk.trans_le hN)
  have hmem (t : BitVec w) :
      t ∈ ((Finset.range N).filter p).image (BitVec.ofNat w) ↔ t.toNat < N ∧ p t.toNat := by
    simp only [Finset.mem_image, Finset.mem_filter, Finset.mem_range]
    refine ⟨?_, fun h => ⟨t.toNat, h, BitVec.eq_of_toNat_eq (hnum h.1)⟩⟩
    rintro ⟨k, hk, rfl⟩
    rwa [hnum hk.1]
  have hinj : Set.InjOn (BitVec.ofNat w) ((Finset.range N).filter p) := fun j hj k hk hjk => by
    have hlt {k : Nat} (hk : k ∈ (Finset.range N).filter p) : k < N := Finset.mem_range.mp (Finset.mem_filter.mp hk).1
    rw [← hnum (hlt hj), hjk, hnum (hlt hk)]
  rw [Nat.subtype_card _ hmem, Finset.card_image_of_injOn hinj, Nat.count_eq_card_filter_range]

/-- Settles O18: `2 ^ 31` is 2,147 times the modulus and 483,648 more. -/
theorem reductionImagesAreCounted : Obligations.ReductionImagesAreCounted := by
  intro c hc
  have hmod (t : BitVec 32) : (reduceToCode t).toNat = c ↔ t.toNat ≡ c [MOD 1000000] := by
    rw [toNat_reduceToCode, Nat.ModEq, Nat.mod_eq_of_lt (show c < 1000000 by omega)]
  simp only [hmod]
  rw [card_toNat_lt_and (by decide) (· ≡ c [MOD 1000000]), Nat.count_modEq_card _ (by decide)]
  split_ifs <;> omega

end Sys2Proof.Proofs

/-! SUPPORT. COMPUTE, VALIDATE and the engine: one code and one message per step of 30 seconds (R65, R69), the code or the
faults of COMPUTE (R66), and the invocations (R43, R58). -/

namespace Sys2Proof.Proofs

open Sys2Proof.Machine Sys2Proof.Claims

/-! ## One step of 30 seconds (R65, R69) -/

/-- The epoch time reaches the code through the message alone (R63). -/
theorem computeCode_congr {hmac : HmacFn} {k : Vector Byte 16} {e e' : BitVec 64} (h : serialize e = serialize e') :
    computeCode hmac k e = computeCode hmac k e' := by
  rw [computeCode, h, computeCode]

/-- Settles O20: the message determines the code, the reduction bounds it, and COMPUTE derives its results from the operands
it keeps. -/
theorem codeIsDeterministicAndInRange : Obligations.CodeIsDeterministicAndInRange := by
  refine ⟨fun hmac k t1 t2 h => computeCode_congr ((serialize_eq_iff t1 t2).mpr h),
    fun hmac k t => Nat.le_of_lt_succ (toNat_computeCode_lt hmac k t), fun s t h => ?_⟩
  have hf := computeWith_derivesFromOperands Config.hmac
  cases h
  exact ⟨hf.operands s, _, exec_compute _, hf.sameRegisters_twice s⟩

/-- VALIDATE at another time with the same message does the same, and keeps the other time. -/
theorem validateWith_withEpoch (hmac : HmacFn) (s : State) {e : BitVec 64} (h : serialize e = serialize s.epoch) :
    State.validateWith hmac { s with epoch := e } = { s.validateWith hmac with epoch := e } := by
  have hfaults : ({ s with epoch := e } : State).validateFaults = s.validateFaults := rfl
  simp only [State.validateWith, hfaults, State.deriveCode_eq, h, computeCode_congr h]
  split <;> rfl

/-- Settles O22: the bytes of the message determine the counter, and VALIDATE reads the time through the message alone. -/
theorem oneStepHasOneMessage : Obligations.OneStepHasOneMessage := by
  refine ⟨serialize_eq_iff, fun s t e' he h => ?_⟩
  cases h
  refine ⟨_, exec_validate _, ?_⟩
  rw [validateWith_withEpoch Config.hmac s ((serialize_eq_iff e' s.epoch).mpr he)]
  exact ⟨⟨rfl, rfl, rfl, rfl⟩, rfl, rfl⟩

/-! ## COMPUTE (R66) -/

/-- The record of one invocation with the present key and message is the one call of R58. -/
theorem oneCall_of_calls {s t : State} (h : t.calls = s.calls ++ [{ key := s.key, msg := serialize s.epoch }]) :
    OneCall s t (Config.hmac s.key (serialize s.epoch)) :=
  ⟨_, isMessage_serialize s.epoch, h, rfl⟩

/-- The fault bits of COMPUTE are the causes of NOKEY and NOEPOCH (R75). -/
theorem getLsbD_computeFaults (s : State) {n : Nat} (hn : n < 4) :
    s.computeFaults.getLsbD n = true ↔ MissingOperand s False n := by
  unfold MissingOperand KeyLoaded EpochLoaded State.computeFaults noKeyBit noEpochBit
  rw [← s.keyValid_iff, ← s.epochValid_iff]
  cases s.keyValid <;> cases s.epochValid <;> interval_cases n <;> simp

theorem computeFaults_eq_zero_iff (s : State) : s.computeFaults = 0 ↔ KeyLoaded s ∧ EpochLoaded s := by
  rw [s.computeFaults_eq_zero, s.keyValid_iff, s.epochValid_iff]

theorem exec_compute_of_loaded {s : State} (hkey : KeyLoaded s) (hepoch : EpochLoaded s) : exec .compute s =
    .next ((s.recordCall { key := s.key, msg := serialize s.epoch }).putCode (computeCode Config.hmac s.key s.epoch)) :=
  congrArg Host.Outcome.next (if_pos ((computeFaults_eq_zero_iff s).mpr ⟨hkey, hepoch⟩))

theorem exec_compute_of_missing {s : State} (h : ¬ (KeyLoaded s ∧ EpochLoaded s)) :
    exec .compute s = .next (s.faultCommand s.computeFaults) :=
  congrArg Host.Outcome.next (if_neg (mt (computeFaults_eq_zero_iff s).mp h))

/-- Settles O23: the two cases of COMPUTE, the code by the arithmetic of the extractor, the faults by their causes. -/
theorem computeDerivesTheCodeOrFaults : Obligations.ComputeDerivesTheCodeOrFaults := by
  refine ⟨decode_eq_compute, fun s hkey hepoch => ?_, fun s hmissing => ?_⟩
  · exact ⟨_, _, exec_compute_of_loaded hkey hepoch, oneCall_of_calls rfl, toNat_extract _, rfl, rfl, rfl,
      ⟨rfl, rfl, rfl, rfl, rfl, rfl⟩, rfl, rfl⟩
  · refine ⟨_, exec_compute_of_missing hmissing, resultsInvalid_invalidateResults _, fun n hn => ?_,
      ⟨rfl, rfl, rfl, rfl, rfl, rfl⟩, rfl, rfl⟩
    rw [State.faultCommand_err, BitVec.getLsbD_or, Bool.or_eq_true, getLsbD_computeFaults s hn]

/-! ## Invocations of the engine (R43, R58) -/

/-- A command invokes the engine when it is a COMPUTE or a VALIDATE with every operand it needs loaded (R43). -/
def Invokes (i : Instr) (s : State) : Prop :=
  (i = .compute ∧ KeyLoaded s ∧ EpochLoaded s) ∨ (i = .validate ∧ KeyLoaded s ∧ EpochLoaded s ∧ CandLoaded s)

theorem validateFaults_eq_zero_iff (s : State) :
    s.validateFaults = 0 ↔ KeyLoaded s ∧ EpochLoaded s ∧ CandLoaded s := by
  rw [s.validateFaults_eq_zero, s.keyValid_iff, s.epochValid_iff, s.candValid_iff]

/-- The record of a command after its `invocations`: without a fault one call more, with a fault the same. -/
theorem calls_of_invocations {s t : State} {faults : BitVec 4} (h : t.calls = s.calls ++ invocations faults s) :
    (faults = 0 → t.calls = s.calls ++ [{ key := s.key, msg := serialize s.epoch }]) ∧
    (faults ≠ 0 → t.calls = s.calls) := by
  rw [h, invocations]
  exact ⟨fun hz => by rw [if_pos hz], fun hz => by rw [if_neg hz, List.append_nil]⟩

/-- A command that invokes the engine adds the one call to the record, any other adds none. -/
theorem exec_calls {i : Instr} {s t : State} (h : exec i s = .next t) :
    (Invokes i s → t.calls = s.calls ++ [{ key := s.key, msg := serialize s.epoch }]) ∧
    (¬ Invokes i s → t.calls = s.calls) := by
  cases i with
  | ldkey k b => cases h; simp [Invokes]
  | ldepoch k b => cases h; simp [Invokes]
  | ldcand k b => cases h; simp [Invokes]
  | clrkey => cases h; simp [Invokes]
  | compute =>
    cases h
    have hiff : Invokes .compute s ↔ s.computeFaults = 0 := by
      rw [computeFaults_eq_zero_iff]
      simp [Invokes]
    rw [hiff]
    exact calls_of_invocations ((computeWith_derivesFromOperands Config.hmac).calls s)
  | validate =>
    cases h
    have hiff : Invokes .validate s ↔ s.validateFaults = 0 := by
      rw [validateFaults_eq_zero_iff]
      simp [Invokes]
    rw [hiff]
    exact calls_of_invocations ((validateWith_derivesFromOperands Config.hmac).calls s)

/-- Settles O35: the words of COMPUTE and VALIDATE by what a command adds to the record; an illegal word and reset add
nothing. -/
theorem invocationsAreThoseOfSuccessfulCommands : Obligations.InvocationsAreThoseOfSuccessfulCommands := by
  intro s ev rest t hs h
  have hcall {w : CmdWord} {i : Instr} (hev : ev = .word w) (hw : decode w = .ok i) :=
    exec_calls ((step_command s w rest i (hev ▸ hs) hw).symm.trans h)
  refine ⟨fun hev hk he => ⟨_, oneCall_of_calls ((hcall hev rfl).1 (.inl ⟨rfl, hk, he⟩))⟩,
    fun hev hk he hc => ⟨_, oneCall_of_calls ((hcall hev rfl).1 (.inr ⟨rfl, hk, he, hc⟩))⟩, fun hno => ?_⟩
  cases ev with
  | reset =>
    rw [step_reset s rest hs] at h
    cases h
    rfl
  | word w =>
    match hw : decode w with
    | .error e =>
      rw [step_illegal s w rest e hs hw] at h
      cases h
      rfl
    | .ok i =>
      refine (hcall rfl hw).2 fun hi => hno ?_
      obtain ⟨rfl, hops⟩ | ⟨rfl, hops⟩ := hi
      · exact .inl ⟨by rw [(decode_eq_compute w).mp hw], hops⟩
      · exact .inr ⟨by rw [(decode_eq_validate w).mp hw], hops⟩

end Sys2Proof.Proofs

/-! SUPPORT. VALIDATE (42_validate.md): the comparison as numbers (R67), the match or the faults of VALIDATE (R68), and the
candidate that matches the code COMPUTE gave (R71). -/

namespace Sys2Proof.Proofs

open Sys2Proof.Machine Sys2Proof.Claims

/-! ## The comparison (R67) -/

/-- The comparison answers 1 on equal numbers: the zero extension loses no bit of the code. -/
theorem compareCode_eq_one_iff (c : BitVec 20) (cand : BitVec 32) : compareCode c cand = 1 ↔ c.toNat = cand.toNat := by
  rw [compareCode_eq_one, ← BitVec.toNat_inj, BitVec.toNat_setWidth_of_le (by decide)]

/-- A bit that is not 1 is 0. -/
theorem bit_eq_zero_iff (b : Bit) : b = 0 ↔ b ≠ 1 := by
  revert b
  decide

theorem compareCode_eq_zero_iff (c : BitVec 20) (cand : BitVec 32) : compareCode c cand = 0 ↔ c.toNat ≠ cand.toNat := by
  rw [bit_eq_zero_iff, Ne, compareCode_eq_one_iff]

/-- Settles O19: (a) and (b) are candidates whose number is not the code's. -/
theorem compareIsExactIntegerEquality : Obligations.CompareIsExactIntegerEquality := by
  refine fun c cand => ⟨compareCode_eq_one_iff c cand, compareCode_eq_zero_iff c cand, fun hc hcand => ?_,
    fun hlow hhigh => ?_⟩
  · rw [compareCode_eq_zero_iff]
    omega
  · rw [compareCode_eq_zero_iff]
    omega

/-! ## VALIDATE (R68) -/

/-- The fault bits of VALIDATE are the causes of NOKEY, NOEPOCH and NOCAND (R75). -/
theorem getLsbD_validateFaults (s : State) {n : Nat} (hn : n < 4) :
    s.validateFaults.getLsbD n = true ↔ MissingOperand s True n := by
  have hcand : (if s.candValid then 0 else noCandBit).getLsbD n = true ↔ n = 3 ∧ ¬ CandLoaded s := by
    unfold CandLoaded noCandBit
    rw [← s.candValid_iff]
    cases s.candValid <;> interval_cases n <;> simp
  rw [State.validateFaults, BitVec.getLsbD_or, Bool.or_eq_true, getLsbD_computeFaults s hn, hcand]
  simp [MissingOperand, or_assoc]

theorem exec_validate_of_loaded {s : State} (hkey : KeyLoaded s) (hepoch : EpochLoaded s) (hcand : CandLoaded s) :
    exec .validate s = .next ((s.recordCall { key := s.key, msg := serialize s.epoch }).putMatch
      (compareCode (computeCode Config.hmac s.key s.epoch) s.cand)) :=
  congrArg Host.Outcome.next (if_pos ((validateFaults_eq_zero_iff s).mpr ⟨hkey, hepoch, hcand⟩))

theorem exec_validate_of_missing {s : State} (h : ¬ (KeyLoaded s ∧ EpochLoaded s ∧ CandLoaded s)) :
    exec .validate s = .next (s.faultCommand s.validateFaults) :=
  congrArg Host.Outcome.next (if_neg (mt (validateFaults_eq_zero_iff s).mp h))

/-- Settles O24: the two cases of VALIDATE, the comparison on numbers with the code by the arithmetic of the extractor, the
faults by their causes. -/
theorem validateComparesOrFaults : Obligations.ValidateComparesOrFaults := by
  refine ⟨decode_eq_validate, fun s hkey hepoch hcand => ?_, fun s hmissing => ?_⟩
  · refine ⟨_, _, exec_validate_of_loaded hkey hepoch hcand, oneCall_of_calls rfl, ?_, rfl, rfl, rfl,
      ⟨rfl, rfl, rfl, rfl, rfl, rfl⟩, rfl, rfl⟩
    rw [State.putMatch_matchBit, compareCode_eq_one_iff, computeCode, toNat_extract, eq_comm]
  · refine ⟨_, exec_validate_of_missing hmissing, resultsInvalid_invalidateResults _, fun n hn => ?_,
      ⟨rfl, rfl, rfl, rfl, rfl, rfl⟩, rfl, rfl⟩
    rw [State.faultCommand_err, BitVec.getLsbD_or, Bool.or_eq_true, getLsbD_validateFaults s hn]

/-! ## Validation (R71) -/

/-- One list of commands after another. -/
theorem execAll_append {is : List Instr} (js : List Instr) {s t : State} (h : execAll is s = .next t) :
    execAll (is ++ js) s = execAll js t := by
  rw [← runEvents_encode] at h ⊢
  rw [List.map_append, runEvents_append _ _ s t h, runEvents_encode]

theorem execAll_singleton (i : Instr) (s : State) : execAll [i] s = exec i s := by
  obtain ⟨t, ht, -⟩ := exec_next i s
  simp only [execAll, ht]

/-- The four loads of a candidate `v` leave it loaded, and key, epoch time and `ERR` as they were. -/
theorem execAll_loadCand (v : BitVec 32) (s : State) :
    ∃ t, execAll ((indices 2).map fun i => .ldcand i (byteAt v (candLsb i))) s = .next t ∧ CandLoaded t ∧ t.cand = v ∧
      t.key = s.key ∧ t.kmask = s.kmask ∧ t.epoch = s.epoch ∧ t.emask = s.emask ∧ t.err = s.err := by
  obtain ⟨t, ht, hbyte, -, hkept⟩ := loadsByte_ldcand.execAll (fun i => byteAt v (candLsb i)) (indices 2) s
    fun h => absurd h (indices_ne_nil 2)
  obtain ⟨hmask, hcand⟩ := cand_of_candByte? fun i => (hbyte i).trans (if_pos (mem_indices i))
  simp only [keptByCandLoads, Prod.mk.injEq] at hkept
  obtain ⟨hkey, hkmask, hepoch, hemask, herr, -, -⟩ := hkept
  exact ⟨t, ht, t.candValid_iff.mp ((candValid_eq_true t).mpr hmask), hcand, hkey, hkmask, hepoch, hemask, herr⟩

/-- With key and epoch time loaded, the loads of a candidate and VALIDATE compare it with the code of both. -/
theorem execAll_loadCand_validate (v : BitVec 32) {s : State} (hkey : KeyLoaded s) (hepoch : EpochLoaded s) :
    ∃ t, execAll (((indices 2).map fun i => .ldcand i (byteAt v (candLsb i))) ++ [.validate]) s = .next t ∧
      t.matchBit = compareCode (computeCode Config.hmac s.key s.epoch) v ∧ t.matchv = 1 ∧ t.cand = v ∧
      t.err = s.err := by
  obtain ⟨t, ht, hcandLoaded, hcand, htkey, htkmask, htepoch, htemask, hterr⟩ := execAll_loadCand v s
  have hvalidate := exec_validate_of_loaded (s := t) (by simpa only [KeyLoaded, htkmask])
    (by simpa only [EpochLoaded, htemask]) hcandLoaded
  refine ⟨_, (execAll_append _ ht).trans ((execAll_singleton _ t).trans hvalidate), ?_, rfl, hcand, hterr⟩
  rw [State.putMatch_matchBit, htkey, htepoch, hcand]

/-- Settles O26: VALIDATE compares the candidate with the code COMPUTE gave, since the loads between them keep key and epoch
time; no code is its own successor modulo 1,000,000. -/
theorem validationIsCorrect : Obligations.ValidationIsCorrect := by
  intro s v hkey hepoch
  obtain ⟨u, hu, hmatch, hmatchv, hcand, herr⟩ := execAll_loadCand_validate v
    (s := (s.recordCall { key := s.key, msg := serialize s.epoch }).putCode (computeCode Config.hmac s.key s.epoch))
    hkey hepoch
  have hone : u.matchBit = 1 ↔ v.toNat = (computeCode Config.hmac s.key s.epoch).toNat := by
    rw [hmatch, compareCode_eq_one_iff, eq_comm]
    rfl
  have hrange := toNat_computeCode_lt Config.hmac s.key s.epoch
  refine ⟨_, u, exec_compute_of_loaded hkey hepoch, hu, rfl, hmatchv, hcand, herr, hone, hone.mpr, fun hv => ?_⟩
  rw [State.putCode_code] at hv
  rw [bit_eq_zero_iff, Ne, hone]
  omega

end Sys2Proof.Proofs

/-! SUPPORT. The key's life cycle: a key not wholly loaded raises NOKEY, and CLRKEY leaves no key byte loaded (R72). -/

namespace Sys2Proof.Proofs

open Sys2Proof.Machine Sys2Proof.Claims

/-! ## CLRKEY (R72) -/

/-- COMPUTE without the whole key raises NOKEY, gives no result and makes no invocation (R66, R79). -/
theorem exec_compute_of_key_missing {s : State} (h : ¬ KeyLoaded s) :
    ∃ t, exec .compute s = .next t ∧ ResultsInvalid t ∧ t.err.getLsbD 1 = true ∧ t.calls = s.calls := by
  have hnoKey : s.computeFaults.getLsbD 1 = true := (getLsbD_computeFaults s (by decide)).mpr (.inl ⟨rfl, h⟩)
  refine ⟨_, exec_compute_of_missing fun hloaded => h hloaded.1, resultsInvalid_invalidateResults _, ?_, rfl⟩
  rw [State.faultCommand_err, BitVec.getLsbD_or, hnoKey, Bool.or_true]

theorem not_keyLoaded_clearKey (s : State) : ¬ KeyLoaded s.clearKey := fun h => absurd (h 0) (by simp)

/-- Settles O25: by the command's one word, the writes of a cleared key, and COMPUTE without the whole key. -/
theorem clrkeyOverwritesTheKey : Obligations.ClrkeyOverwritesTheKey := by
  refine ⟨decode_eq_clrkey, fun s => ?_⟩
  obtain ⟨u, hu, -, hnoKey, hcalls⟩ :=
    exec_compute_of_key_missing (s := s.clearKey.invalidateResults) (not_keyLoaded_clearKey s)
  exact ⟨_, exec_clrkey s, fun i => Vector.getElem_replicate i.isLt, fun n => BitVec.getLsbD_zero,
    resultsInvalid_invalidateResults _, rfl, rfl, rfl, rfl, rfl, rfl, ⟨rfl, rfl⟩, ⟨u, hu, hnoKey, hcalls⟩,
    _, exec_clrkey _, rfl⟩

end Sys2Proof.Proofs

/-! SUPPORT. The faults (60_exceptions.md): the bits a word sets in `ERR` and their causes (R75, R78), a faulting command
(R79), and what the fault bits say of a run (R80). -/

namespace Sys2Proof.Proofs

open Sys2Proof.Machine Sys2Proof.Claims

/-! ## Causes of R75 -/

/-- An illegal word has the cause of ILLEGAL and no other: it is neither COMPUTE nor VALIDATE (R78). -/
theorem cause_illegal_iff {w : CmdWord} {e : IllegalWord} (hw : decode w = .error e) (s : State) (n : Nat) :
    Cause s w n ↔ n = 0 := by
  have hcompute : w ≠ 0x4000 := by rintro rfl; cases hw
  have hvalidate : w ≠ 0x5000 := by rintro rfl; cases hw
  simp only [Cause, hw, hcompute, hvalidate, Except.error.injEq, exists_eq', and_true, or_self, false_and, or_false]

/-- A command's causes are the operands that COMPUTE or VALIDATE miss. -/
theorem cause_command_iff {w : CmdWord} {i : Instr} (hw : decode w = .ok i) (s : State) (n : Nat) :
    Cause s w n ↔ (i = .compute ∧ MissingOperand s False n) ∨ (i = .validate ∧ MissingOperand s True n) := by
  have hcompute : w = 0x4000 ↔ i = .compute := by rw [← decode_eq_compute, hw, Except.ok.injEq]
  have hvalidate : w = 0x5000 ↔ i = .validate := by rw [← decode_eq_validate, hw, Except.ok.injEq]
  simp only [Cause, hw, hcompute, hvalidate, reduceCtorEq, exists_false, and_false, false_or, or_and_right]
  exact or_congr (and_congr_right fun hi => by simp [hi]) (and_congr_right fun hi => by simp [hi])

/-- A word with the cause of ILLEGAL is illegal: a missing operand has bit 1, 2 or 3 (R75). -/
theorem decode_error_of_cause_zero {s : State} {w : CmdWord} (h : Cause s w 0) : ∃ e, decode w = .error e := by
  obtain ⟨-, he⟩ | ⟨-, hmissing⟩ := h
  · exact he
  · simp [MissingOperand] at hmissing

/-! ## What a word makes of `ERR` (R75, R78) -/

/-- Setting bits of `ERR` gains the causes that these bits stand for (R74). -/
theorem errGains_of_err_or {s t : State} {bits : BitVec 4} {cause : Nat → Prop} (h : t.err = s.err ||| bits)
    (hbits : ∀ n < 4, bits.getLsbD n = true ↔ cause n) : ErrGains s t cause := fun n hn => by
  rw [h, BitVec.getLsbD_or, Bool.or_eq_true, hbits n hn]

/-- Without a cause `ERR` stays. -/
theorem errGains_of_err_eq {s t : State} {cause : Nat → Prop} (h : t.err = s.err) (hno : ∀ n, ¬ cause n) :
    ErrGains s t cause := fun n _ => by
  rw [h, or_iff_left (hno n)]

/-- A command gains in `ERR` its causes: COMPUTE and VALIDATE those of their missing operands, any other none. -/
theorem exec_errGains {w : CmdWord} {i : Instr} {s t : State} (hw : decode w = .ok i) (h : exec i s = .next t) :
    ErrGains s t (Cause s w) := by
  have hcause := cause_command_iff hw s
  cases i with
  | ldkey _ _ | ldepoch _ _ | ldcand _ _ | clrkey =>
    cases h
    exact errGains_of_err_eq rfl (by simp [hcause])
  | compute =>
    cases h
    refine errGains_of_err_or ((computeWith_derivesFromOperands Config.hmac).err s) fun n hn => ?_
    simp [getLsbD_computeFaults s hn, hcause]
  | validate =>
    cases h
    refine errGains_of_err_or ((validateWith_derivesFromOperands Config.hmac).err s) fun n hn => ?_
    simp [getLsbD_validateFaults s hn, hcause]

/-- The step of a word gains in `ERR` the word's causes. -/
theorem step_word_errGains {s t : State} {w : CmdWord} {rest : List HostEvent} (hs : s.host = .word w :: rest)
    (h : step s = .next t) : ErrGains s t (Cause s w) := by
  match hw : decode w with
  | .ok i => exact exec_errGains (s := { s with host := rest }) hw ((step_command s w rest i hs hw).symm.trans h)
  | .error e =>
    cases (step_illegal s w rest e hs hw).symm.trans h
    intro n hn
    rw [cause_illegal_iff hw]
    exact errGains_illegalWord { s with host := rest } n hn

/-- Settles O38: the step of a word gains its causes, and an illegal word has one. -/
theorem faultBitsAreExactlyTheirCauses : Obligations.FaultBitsAreExactlyTheirCauses := by
  refine ⟨fun s w rest t => step_word_errGains, fun s w n hillegal hn => ?_⟩
  obtain ⟨e, hw⟩ := decode_error_of_cause_zero hillegal
  exact (cause_illegal_iff hw s n).mp hn

/-! ## A faulting command (R79) -/

/-- A command with a cause of R75 raises fault bits and invalidates the results, and that is all it does. -/
theorem exec_of_cause {w : CmdWord} {i : Instr} {s : State} {n : Nat} (hw : decode w = .ok i) (hcause : Cause s w n) :
    ∃ bits, exec i s = .next (s.faultCommand bits) := by
  obtain ⟨rfl, hmissing⟩ | ⟨rfl, hmissing⟩ := (cause_command_iff hw s n).mp hcause
  · refine ⟨_, exec_compute_of_missing ?_⟩
    rintro ⟨hkey, hepoch⟩
    simp [MissingOperand, hkey, hepoch] at hmissing
  · refine ⟨_, exec_validate_of_missing ?_⟩
    rintro ⟨hkey, hepoch, hcand⟩
    simp [MissingOperand, hkey, hepoch, hcand] at hmissing

/-- Settles O39: an illegal word raises ILLEGAL alone; COMPUTE or VALIDATE with a cause is the shared faulting command. -/
theorem faultingStepDoesNothingMore : Obligations.FaultingStepDoesNothingMore := by
  refine ⟨fun s w rest e hs hw => ?_, fun s w rest hs hword ⟨n, _, hcause⟩ => ?_⟩
  · exact ⟨_, step_illegal s w rest e hs hw, errGains_illegalWord _, ⟨rfl, rfl, rfl, rfl, rfl, rfl⟩,
      ⟨rfl, rfl, rfl, rfl⟩, rfl⟩
  · obtain ⟨i, hw⟩ : ∃ i, decode w = .ok i := by
      obtain rfl | rfl := hword
      · exact ⟨.compute, rfl⟩
      · exact ⟨.validate, rfl⟩
    obtain ⟨bits, hexec⟩ := exec_of_cause (s := { s with host := rest }) hw hcause
    have hstep := (step_command s w rest i hs hw).trans hexec
    exact ⟨_, hstep, step_word_errGains hs hstep, resultsInvalid_invalidateResults _,
      ⟨rfl, rfl, rfl, rfl, rfl, rfl⟩, rfl⟩

/-! ## Fault bits and later commands (R80) -/

/-- The second state is the first with some value of `ERR`. -/
def SameButErr (s t : State) : Prop := ∃ e, t = { s with err := e }

theorem sameButErr_keptByOps : KeptByOps SameButErr where
  validFlags := by rintro s t ⟨e, rfl⟩; exact ⟨rfl, rfl, rfl⟩
  loadKeyByte i b := by rintro ⟨e, rfl⟩; exact ⟨e, rfl⟩
  loadEpochByte i b := by rintro ⟨e, rfl⟩; exact ⟨e, rfl⟩
  loadCandByte i b := by rintro ⟨e, rfl⟩; exact ⟨e, rfl⟩
  clearKey := by rintro s t ⟨e, rfl⟩; exact ⟨e, rfl⟩
  invalidateResults := by rintro s t ⟨e, rfl⟩; exact ⟨e, rfl⟩
  raiseFault bits := by rintro ⟨e, rfl⟩; exact ⟨e ||| bits, rfl⟩
  recordCall := by rintro s t ⟨e, rfl⟩ - -; exact ⟨e, rfl⟩
  putCode c := by rintro ⟨e, rfl⟩; exact ⟨e, rfl⟩
  putMatch m := by rintro ⟨e, rfl⟩; exact ⟨e, rfl⟩
  assertReset := by rintro s t ⟨e, rfl⟩; exact ⟨0, rfl⟩
  takeEvent rest := by rintro ⟨e, rfl⟩; exact ⟨e, rfl⟩

/-- Settles O40: no operation of a command reads `ERR`, nor does what COMPUTE and VALIDATE derive. -/
theorem faultBitsBlockNoCommand : Obligations.FaultBitsBlockNoCommand := by
  intro i s t e ht
  have hd : SameDerivation i s { s with err := e } := ⟨fun _ _ _ => rfl, fun _ _ _ _ => rfl⟩
  obtain ⟨t', u, ht', hu, herr⟩ := sameButErr_keptByOps.exec i ⟨e, rfl⟩ hd
  cases ht.symm.trans ht'
  obtain ⟨e', rfl⟩ := herr
  exact ⟨_, hu, ⟨rfl, rfl, rfl, rfl, rfl, rfl⟩, ⟨rfl, rfl, rfl, rfl⟩, rfl, rfl⟩

/-! ## A run without a fault (R80) -/

/-- No word of the run `evs` from `s` has a cause of R75 in the state in which it is executed. -/
def CauseFree (evs : List HostEvent) (s : State) : Prop :=
  ∀ pre w post u, evs = pre ++ .word w :: post → runEvents pre s = .next u → ∀ n < 4, ¬ Cause u w n

theorem causeFree_nil (s : State) : CauseFree [] s := by
  intro pre w post u h
  simp at h

/-- A run is free of causes when its first word is, and the rest of the run from the state this word leaves. -/
theorem causeFree_cons {w : CmdWord} {evs : List HostEvent} {s u : State} (h : step (s.issueNext (.word w)) = .next u) :
    CauseFree (.word w :: evs) s ↔ (∀ n < 4, ¬ Cause s w n) ∧ CauseFree evs u := by
  constructor
  · refine fun hfree => ⟨hfree [] w evs s rfl rfl, fun pre w' post v hevs hv => ?_⟩
    exact hfree (.word w :: pre) w' post v (congrArg _ hevs) ((runEvents_cons _ _ _ _ h).trans hv)
  · rintro ⟨hfirst, hrest⟩ pre w' post v hevs hv
    cases pre with
    | nil => cases hevs; cases hv; exact hfirst
    | cons ev pre =>
      cases hevs
      exact hrest pre w' post v rfl ((runEvents_cons _ _ _ _ h).symm.trans hv)

theorem err_eq_zero_iff (s : State) : s.err = 0 ↔ ∀ n < 4, ¬ s.err.getLsbD n = true := by
  refine ⟨fun h n _ => by simp [h], fun h => BitVec.eq_of_getLsbD_eq fun n hn => ?_⟩
  simpa using h n hn

/-- `ERR` is 0 after a step exactly when it was 0 before and nothing was gained. -/
theorem err_eq_zero_iff_of_errGains {s t : State} {cause : Nat → Prop} (h : ErrGains s t cause) :
    t.err = 0 ↔ s.err = 0 ∧ ∀ n < 4, ¬ cause n := by
  rw [err_eq_zero_iff, err_eq_zero_iff, ← forall₂_and]
  exact forall₂_congr fun n hn => (not_congr (h n hn)).trans not_or

/-- After a run without a reset `ERR` is 0 exactly when it was 0 at the start and the run is free of causes. -/
theorem runEvents_err_eq_zero_iff {evs : List HostEvent} {s t : State} (hev : .reset ∉ evs)
    (h : runEvents evs s = .next t) : t.err = 0 ↔ s.err = 0 ∧ CauseFree evs s := by
  induction evs generalizing s with
  | nil => cases h; exact (and_iff_left (causeFree_nil t)).symm
  | cons ev evs ih =>
    rw [List.mem_cons, not_or] at hev
    obtain ⟨hhead, htail⟩ := hev
    obtain ⟨u, hu, hrest⟩ := runEvents_cons_next ev evs s t h
    cases ev with
    | reset => exact absurd rfl hhead
    | word w =>
      have hfirst : u.err = 0 ↔ s.err = 0 ∧ ∀ n < 4, ¬ Cause s w n :=
        err_eq_zero_iff_of_errGains (step_word_errGains (s := s.issueNext (.word w)) rfl hu)
      rw [ih htail hrest, hfirst, causeFree_cons hu, and_assoc]

/-- Settles O41: `ERR` is 0 at reset, and a run from there keeps it 0 exactly when it is free of causes. -/
theorem noFaultExactlyWhenErrIsZero : Obligations.NoFaultExactlyWhenErrIsZero := fun _ _ hev h =>
  (runEvents_err_eq_zero_iff hev h).trans (and_iff_right rfl)

end Sys2Proof.Proofs

/-! SUPPORT. Reset and the hazards of a host's sequence of commands (70_reset_and_hazards.md): the reset step (R84), loads in
any order (R85), a host that reads `MATCH_O` alone (R86), and a partial reload of an operand (R87, R88). -/

namespace Sys2Proof.Proofs

open Sys2Proof.Machine Sys2Proof.Claims

/-! ## The reset step (R84) and the match port (R86) -/

/-- Settles O2: the reset step writes the literal reset state, and the step of a word only sets bits of `ERR`. -/
theorem resetStepWritesEveryRegister : Obligations.ResetStepWritesEveryRegister := by
  refine ⟨fun s rest hs => ?_, fun s w rest t => errKept_step_word⟩
  exact ⟨_, step_reset s rest hs, ⟨⟨rfl, rfl, rfl, rfl, rfl, rfl⟩, ⟨rfl, rfl, rfl, rfl⟩, rfl⟩, rfl, [], List.append_nil _⟩

/-- Settles O45: the clauses are the invariants of R32 at the end of the run, since a match shown is a match valid. -/
theorem acceptingOnMatchAloneIsSafe : Obligations.AcceptingOnMatchAloneIsSafe := by
  intro evs t ht
  obtain ⟨hinv, -⟩ := reachableStatesMeetR32
  obtain ⟨-, hflag, hrange, hclear, -, hcurrent⟩ := hinv evs t ht
  refine ⟨hflag.mp, hrange, hclear, fun hmatch => ?_⟩
  have hvalid : t.matchv = 1 := by
    by_contra hne
    exact (bit_eq_zero_iff _).mp (hclear ((bit_eq_zero_iff _).mpr hne)) hmatch
  obtain ⟨hkey, hepoch, hcand, hiff⟩ := hcurrent hvalid
  obtain ⟨-, -, -, -, hkeyv, hepochv, hcandv, -⟩ := portsShowTheRegisters t
  refine ⟨hkeyv.trans (if_pos hkey), hepochv.trans (if_pos hepoch), hcandv.trans (if_pos hcand), ?_⟩
  rw [eq_comm, ← compareCode_eq_one_iff, compareCode_eq_one]
  exact hiff.mp hmatch

/-! ## Loads in any order (R85) -/

/-- A bit is 1 after bit `i` was set exactly when it was 1 before or is bit `i`. -/
theorem getLsbD_setBit_eq_true_iff {w n : Nat} (m : BitVec w) {i : BitVec n} (hi : i.toNat < w) (k : BitVec n) :
    (setBit m i.toNat).getLsbD k.toNat = true ↔ m.getLsbD k.toNat = true ∨ k = i := by
  rw [getLsbD_setBit m _ _ hi, Bool.or_eq_true, decide_eq_true_eq, BitVec.toNat_inj, or_comm]

/-- LDKEY, LDEPOCH or LDCAND. -/
def IsLoad (i : Instr) : Prop := (∃ k b, i = .ldkey k b) ∨ (∃ k b, i = .ldepoch k b) ∨ (∃ k b, i = .ldcand k b)

/-- From `s` to `t` each mask gains the bits of the loads in `is`, and `ERR` stays. -/
structure MasksGain (is : List Instr) (s t : State) : Prop where
  key : ∀ k : BitVec 4, t.kmask.getLsbD k.toNat = true ↔ s.kmask.getLsbD k.toNat = true ∨ ∃ b, .ldkey k b ∈ is
  epoch : ∀ k : BitVec 3, t.emask.getLsbD k.toNat = true ↔ s.emask.getLsbD k.toNat = true ∨ ∃ b, .ldepoch k b ∈ is
  cand : ∀ k : BitVec 2, t.cmask.getLsbD k.toNat = true ↔ s.cmask.getLsbD k.toNat = true ∨ ∃ b, .ldcand k b ∈ is
  err : t.err = s.err

theorem masksGain_nil (s : State) : MasksGain [] s s := by
  constructor <;> simp

theorem MasksGain.cons {i : Instr} {is : List Instr} {s u t : State} (hi : MasksGain [i] s u) (his : MasksGain is u t) :
    MasksGain (i :: is) s t where
  key k := by simp [his.key, hi.key, exists_or, or_assoc]
  epoch k := by simp [his.epoch, hi.epoch, exists_or, or_assoc]
  cand k := by simp [his.cand, hi.cand, exists_or, or_assoc]
  err := his.err.trans hi.err

/-- One load sets the mask bit of its byte and no other. -/
theorem exec_load_masksGain {i : Instr} (hi : IsLoad i) (s : State) : ∃ t, exec i s = .next t ∧ MasksGain [i] s t := by
  obtain ⟨j, b, rfl⟩ | ⟨j, b, rfl⟩ | ⟨j, b, rfl⟩ := hi
  · refine ⟨_, exec_ldkey j b s, ⟨fun k => ?_, by simp, by simp, rfl⟩⟩
    simpa using getLsbD_setBit_eq_true_iff s.kmask j.isLt k
  · refine ⟨_, exec_ldepoch j b s, ⟨by simp, fun k => ?_, by simp, rfl⟩⟩
    simpa using getLsbD_setBit_eq_true_iff s.emask j.isLt k
  · refine ⟨_, exec_ldcand j b s, ⟨by simp, by simp, fun k => ?_, rfl⟩⟩
    simpa using getLsbD_setBit_eq_true_iff s.cmask j.isLt k

/-- The first command of a list, then the rest of it. -/
theorem execAll_cons {i : Instr} (is : List Instr) {s t : State} (h : exec i s = .next t) :
    execAll (i :: is) s = execAll is t :=
  execAll_append (is := [i]) is ((execAll_singleton i s).trans h)

theorem execAll_loads_masksGain {is : List Instr} (his : ∀ i ∈ is, IsLoad i) (s : State) :
    ∃ t, execAll is s = .next t ∧ MasksGain is s t := by
  induction is generalizing s with
  | nil => exact ⟨s, rfl, masksGain_nil s⟩
  | cons i is ih =>
    obtain ⟨hi, his⟩ := List.forall_mem_cons.mp his
    obtain ⟨u, hu, hgain⟩ := exec_load_masksGain hi s
    obtain ⟨t, ht, hrest⟩ := ih his u
    exact ⟨t, (execAll_cons is hu).trans ht, hgain.cons hrest⟩

/-- From reset, where no mask bit is set, an operand is loaded exactly when each of its bytes was. -/
theorem MasksGain.loaded_iff {is : List Instr} {t : State} (h : MasksGain is State.reset t) :
    (KeyLoaded t ↔ ∀ k, ∃ b, .ldkey k b ∈ is) ∧ (EpochLoaded t ↔ ∀ k, ∃ b, .ldepoch k b ∈ is) ∧
      (CandLoaded t ↔ ∀ k, ∃ b, .ldcand k b ∈ is) := by
  refine ⟨forall_congr' fun k => ?_, forall_congr' fun k => ?_, forall_congr' fun k => ?_⟩
  · simpa [State.reset] using h.key k
  · simpa [State.reset] using h.epoch k
  · simpa [State.reset] using h.cand k

/-- COMPUTE shows a valid code exactly when it raises no fault. -/
theorem computeWith_codev_eq_one_iff (hmac : HmacFn) (s : State) :
    (s.computeWith hmac).codev = 1 ↔ s.computeFaults = 0 := by
  unfold State.computeWith
  split
  next hz => exact iff_of_true rfl hz
  next hz => exact iff_of_false (by simp) hz

/-- VALIDATE shows a valid match exactly when it raises no fault. -/
theorem validateWith_matchv_eq_one_iff (hmac : HmacFn) (s : State) :
    (s.validateWith hmac).matchv = 1 ↔ s.validateFaults = 0 := by
  unfold State.validateWith
  split
  next hz => exact iff_of_true rfl hz
  next hz => exact iff_of_false (by simp) hz

/-- With no fault bit set before, `ERR` is what COMPUTE or VALIDATE raises. -/
theorem DerivesFromOperands.err_of_err_eq_zero {f : State → State} {faults : State → BitVec 4}
    (hf : DerivesFromOperands f faults) {s : State} (h : s.err = 0) : (f s).err = faults s := by
  rw [hf.err s, h]
  exact BitVec.zero_or

/-- Settles O28: the loads leave in the masks what was loaded and `ERR` at 0, and COMPUTE and VALIDATE raise what the masks
miss. -/
theorem loadsInAnyOrderMakeReady : Obligations.LoadsInAnyOrderMakeReady := by
  intro is his
  obtain ⟨t, ht, hgain⟩ := execAll_loads_masksGain his State.reset
  obtain ⟨hkey, hepoch, hcand⟩ := hgain.loaded_iff
  have hcompute := (computeWith_derivesFromOperands Config.hmac).err_of_err_eq_zero hgain.err
  have hvalidate := (validateWith_derivesFromOperands Config.hmac).err_of_err_eq_zero hgain.err
  refine ⟨t, _, _, ht, exec_compute t, exec_validate t, ?_⟩
  rw [hcompute, hvalidate, computeWith_codev_eq_one_iff, validateWith_matchv_eq_one_iff, and_self, and_self,
    computeFaults_eq_zero_iff, validateFaults_eq_zero_iff, ← hkey, ← hepoch, ← hcand]
  refine ⟨Iff.rfl, Iff.rfl, fun k hk => ?_, fun k hk => ?_, fun k hk => ?_⟩
  · have hmissing : ¬ KeyLoaded t := fun h => (hkey.mp h k).elim hk
    exact ⟨(getLsbD_computeFaults t (by decide)).mpr (.inl ⟨rfl, hmissing⟩),
      (getLsbD_validateFaults t (by decide)).mpr (.inl ⟨rfl, hmissing⟩)⟩
  · have hmissing : ¬ EpochLoaded t := fun h => (hepoch.mp h k).elim hk
    exact ⟨(getLsbD_computeFaults t (by decide)).mpr (.inr (.inl ⟨rfl, hmissing⟩)),
      (getLsbD_validateFaults t (by decide)).mpr (.inr (.inl ⟨rfl, hmissing⟩))⟩
  · have hmissing : ¬ CandLoaded t := fun h => (hcand.mp h k).elim hk
    exact (getLsbD_validateFaults t (by decide)).mpr (.inr (.inr ⟨rfl, trivial, hmissing⟩))

/-! ## A partial reload (R87, R88) -/

/-- A full mask stays full under a load of one byte. -/
theorem setBit_of_full {w n : Nat} {m : BitVec w} {i : BitVec n} (hi : i.toNat < w)
    (h : ∀ k : BitVec n, m.getLsbD k.toNat = true) (k : BitVec n) : (setBit m i.toNat).getLsbD k.toNat = true :=
  (getLsbD_setBit_eq_true_iff m hi k).mpr (.inl (h k))

/-- One load after CLRKEY leaves every other key byte missing. -/
theorem not_keyLoaded_loadKeyByte_clearKey (s : State) (i : BitVec 4) (b : Byte) :
    ¬ KeyLoaded (s.clearKey.loadKeyByte i b) := by
  intro h
  have hnext : ∀ j : BitVec 4, j + 1 ≠ j := by decide
  obtain hbit | heq := (getLsbD_setBit_eq_true_iff s.clearKey.kmask i.isLt (i + 1)).mp (h (i + 1))
  · simp at hbit
  · exact hnext i heq

/-- Two commands, one after the other. -/
theorem execAll_pair {i j : Instr} {s t u : State} (hi : exec i s = .next t) (hj : exec j t = .next u) :
    execAll [i, j] s = .next u := by
  rw [execAll_cons [j] hi, execAll_singleton, hj]

/-- Settles O46: a load over a full mask leaves it full, so COMPUTE and VALIDATE take the mixed operand; after CLRKEY one
load leaves the mask with a bit missing. -/
theorem partialReloadIsNotNoticed : Obligations.PartialReloadIsNotNoticed := by
  refine ⟨fun s i b hkey hepoch => ?_, fun s i b => ?_, fun s i b hkey hepoch => ?_, fun s i b hkey hepoch hcand => ?_⟩
  · have hloaded : KeyLoaded (s.loadKeyByte i b).invalidateResults := setBit_of_full i.isLt hkey
    exact ⟨_, execAll_pair (exec_ldkey i b s) (exec_compute_of_loaded hloaded hepoch), rfl, rfl, rfl⟩
  · obtain ⟨t, ht, hinv, herr, hcalls⟩ :=
      exec_compute_of_key_missing (s := (s.clearKey.invalidateResults.loadKeyByte i b).invalidateResults)
        (not_keyLoaded_loadKeyByte_clearKey s i b)
    exact ⟨t, (execAll_cons _ (exec_clrkey s)).trans (execAll_pair (exec_ldkey i b _) ht), hinv, herr, hcalls⟩
  · have hloaded : EpochLoaded (s.loadEpochByte i b).invalidateResults := setBit_of_full i.isLt hepoch
    exact ⟨_, execAll_pair (exec_ldepoch i b s) (exec_compute_of_loaded hkey hloaded), rfl, rfl, rfl,
      byteAt_setByteAt_same s.epoch (epochLsb i) b (epochLsb_add_le i),
      fun n hn => getLsbD_setByteAt_outside s.epoch b (epochLsb_add_le i) (by unfold epochLsb; omega)⟩
  · have hloaded : CandLoaded (s.loadCandByte i b).invalidateResults := setBit_of_full i.isLt hcand
    exact ⟨_, execAll_pair (exec_ldcand i b s) (exec_validate_of_loaded hkey hepoch hloaded), rfl, rfl,
      (compareCode_eq_one_iff _ _).trans eq_comm,
      byteAt_setByteAt_same s.cand (candLsb i) b (candLsb_add_le i),
      fun n hn => getLsbD_setByteAt_outside s.cand b (candLsb_add_le i) (by unfold candLsb; omega)⟩

end Sys2Proof.Proofs
